-- ==== Sys2Proof/Word.lean ====
section
/-! DEFINITION. The widths of the block: 32-bit words (00_scope R6), bytes, and the 64-bit registers BLK,
LENL and PLEN (10_state R26, R27). -/

namespace Sys2Proof

/-- A state word, message word, round constant or host register: 32-bit unsigned (R6). -/
abbrev Word := BitVec 32

/-- A message byte. -/
abbrev Byte := BitVec 8

/-- The registers BLK, LENL and PLEN: 64-bit unsigned (R26, R27). -/
abbrev Dword := BitVec 64

end Sys2Proof
end

