-- ==== Sys2Proof/Config.lean ====
section
/-! DEFINITION. What one block fixes (its capacity), and the free values: everything the spec gives the treatment
"any value" (93_implementation_defined U1, U2, U3). A free value is an opaque constant without a body, so nothing
can be proved about which value it is. Each takes the block's number first, so that nothing relates the free values of
two blocks with different numbers. DESIGN CHOICE: blocks given one and the same number share theirs (log 14). -/

namespace Sys2Proof

/-- The parameters of one block (00_scope R7). The spec leaves MAX_MSG_BYTES OPEN, "a model takes it as an argument", so
every State carries it and nothing writes it.
DESIGN CHOICE (safe: a statement about every state is a statement about every capacity), log 1. -/
structure Config where
  /-- MAX_MSG_BYTES, from 0 to 2^61 - 1 -/
  maxMsgBytes : Fin (2 ^ 61)
  /-- the model's own: which of several blocks this is, read by nothing but the free values (log 14) -/
  unit : Nat
  deriving DecidableEq, Repr

/-- The capacity the spec's own vectors use (95_test_vectors sections 9 and 10). Only State.reset uses it.
DESIGN CHOICE (unsafe for a statement about State.reset alone), log 1. -/
def Config.ofVectors : Config := ⟨⟨120, by decide⟩, 0⟩

/-- A MSG byte that nothing has written since reset number `epoch` (U1: any value, the same at every read).
Log 3, and log 14 for `unit`. -/
opaque Config.unwrittenByte (unit epoch address : Nat) : Byte

/-- What a read of DIGESTw or HEXw outside DONE returns (U3: any value, chosen again at each read). Log 6. -/
opaque Config.unspecifiedWord (unit k : Nat) : Word

/-- A 32-bit working register after CLEAR or a reset step (U2, R229: don't-care); `slot` tells the registers apart.
Log 5. -/
opaque Config.dontCareWord (unit k slot : Nat) : Word

/-- BLK, LENL or PLEN after CLEAR or a reset step (U2, R229). Log 5. -/
opaque Config.dontCareDword (unit k slot : Nat) : Dword

/-- RI after CLEAR or a reset step (U2, R229). Log 5. -/
opaque Config.dontCareRI (unit k : Nat) : BitVec 6

/-- PAD[j] for `j` outside [0, PLEN), to which R145 gives no value. Log 13. -/
opaque Config.padBeyond (unit j : Nat) : Byte

end Sys2Proof
end

