-- ==== Sys2Proof/Machine/State.lean ====
section
/-! DEFINITION. The state of one block as plain data (10_state R20 to R46), the reasons a step could stop, and the
state right after reset (70_reset_and_hazards R281). -/

namespace Sys2Proof.Machine

open Sys2Proof

/-- The sequencer's control state (R28). Code 7 is "never reached" and has no name (U10). -/
inductive Phase where
  | idle
  | load
  | round
  | fold
  | encode
  | done
  | fault
  deriving DecidableEq, Repr

/-- The host-error causes (60_exceptions R261). -/
inductive HostCause where
  | busyWrite
  | illegalCmd
  | cmdInFault
  | roWrite
  | msgRange
  deriving DecidableEq, Repr

/-- The block's own faults (60_exceptions R251). They are states of the block (phase FAULT), not stops of the model. -/
inductive FaultCode where
  | lenRange
  | padAlign
  | indexRange
  deriving DecidableEq, Repr

/-- Four state words: A to D, or OA to OD (R22, R23). -/
structure Quad where
  A : Word
  B : Word
  C : Word
  D : Word
  deriving DecidableEq, Repr

/-- One entry of what comes next, from outside the block and for its sequencer (R20, R70, R280).
DESIGN CHOICE (safe for statements about every state), log 2. -/
inductive Event where
  /-- the host presents a TXN128 record -/
  | host (record : BitVec 128)
  /-- the host writes a CMD32 word to CMD -/
  | command (word : BitVec 32)
  /-- the sequencer gets a turn -/
  | sequencer
  /-- the environment resets the block -/
  | reset
  deriving DecidableEq, Repr

/-- What the last read returned to the host (R220, R222). The model's own port, log 10. -/
inductive Reply where
  | nothing
  | word (v : Word)
  | byte (b : Byte)
  deriving DecidableEq, Repr

/-- Message memory: (address, byte) pairs for the bytes written since reset, addresses strictly rising. An unlisted
address holds no written byte and reads as a free value (U1), log 3. -/
abbrev Memory := List Host.Cell

/-- Everything the spec gives one block, and four fields of the model's own at the end. -/
structure State where
  /-- the block's parameters (R7), and its number among several blocks (log 14); no step writes them -/
  cfg : Config
  /-- A, B, C, D (R22) -/
  abcd : Quad
  /-- OA, OB, OC, OD (R23) -/
  orig : Quad
  /-- M[0..16), the current block's words (R24) -/
  M : Vector Word 16
  /-- the round index (R25) -/
  RI : BitVec 6
  /-- the block index (R26) -/
  BLK : Dword
  /-- the latched message length (R27) -/
  LENL : Dword
  /-- the padded length (R27) -/
  PLEN : Dword
  /-- the sequencer's control state (R28) -/
  phase : Phase
  /-- the sticky host-error flag (R34) -/
  HOSTERR : Bool
  /-- the first host error's cause (R34) -/
  HOSTERR_CAUSE : BitVec 8
  /-- the fault code (R35) -/
  FCODE : BitVec 8
  /-- message length, low half (R36) -/
  LEN_LO : Word
  /-- message length, high half (R36) -/
  LEN_HI : Word
  /-- DIGEST0 to DIGEST3 (R37); read by the host only in DONE -/
  DIGEST : Vector Word 4
  /-- HEX0 to HEX7 (R38); read by the host only in DONE -/
  HEX : Vector Word 8
  /-- message memory (R43) -/
  MSG : Memory
  /-- the model's own: what comes next, first entry first (log 2) -/
  inputs : List Event
  /-- the model's own: what the last read returned (log 10) -/
  reply : Reply
  /-- the model's own: which reset's unspecified MSG contents are in place (log 3) -/
  epoch : Nat
  /-- the model's own: the number of the next free value (log 5) -/
  fresh : Nat
  deriving DecidableEq, Repr

/-- Reasons the machine stops with a fault: none. The block's faults are next states (60_exceptions R256: phase FAULT),
so no meaning raises one of these; nothing is unsafe here. Log 12. -/
inductive Fault where
  deriving DecidableEq, Repr

/-- Reasons an instruction is refused. -/
inductive Refusal where
  /-- raised by an arm of exec whose instruction has no meaning yet; no arm does. Safe: the machine stops. -/
  | notModelled (mnemonic : String)
  deriving DecidableEq, Repr

/-- Right after reset (R281, R46): IDLE, no error record, LEN zero. The registers R281 leaves unspecified are zero here:
DESIGN CHOICE (unsafe for a statement that rests on one of those zeros), log 4. MSG lists nothing (log 3). -/
def State.reset : State where
  cfg := Config.ofVectors
  abcd := ⟨0, 0, 0, 0⟩
  orig := ⟨0, 0, 0, 0⟩
  M := #v[0, 0, 0, 0, 0, 0, 0, 0, 0, 0, 0, 0, 0, 0, 0, 0]
  RI := 0
  BLK := 0
  LENL := 0
  PLEN := 0
  phase := .idle
  HOSTERR := false
  HOSTERR_CAUSE := 0
  FCODE := 0
  LEN_LO := 0
  LEN_HI := 0
  DIGEST := #v[0, 0, 0, 0]
  HEX := #v[0, 0, 0, 0, 0, 0, 0, 0]
  MSG := []
  inputs := []
  reply := .nothing
  epoch := 0
  fresh := 0

end Sys2Proof.Machine
end

