-- ==== Sys2Proof/Machine/Ops.lean ====
section
/-! DEFINITION. The shared operations: words and bytes (00_scope R10, R11), message memory (20_memory R61 to R63), the
sequencer's phase codes (10_state R28), the host-error record and fault entry (60_exceptions R256, R262), and what
CLEAR and reset do to the state (44_host_commands R229, 70_reset_and_hazards R281). -/

namespace Sys2Proof.Machine

open Sys2Proof

/-! ## Words and bytes -/

/-- `v[8j+7 : 8j]`, byte `j` of a word (R8). -/
def wordByte (v : Word) (j : Nat) : Byte := v.extractLsb' (8 * j) 8

/-- `le32` (R11): the first byte is bits 7:0. -/
def le32 (b0 b1 b2 b3 : Byte) : Word := b3 ++ b2 ++ b1 ++ b0

/-- `le32_bytes` (R11). -/
def le32Bytes (w : Word) : List Byte := [wordByte w 0, wordByte w 1, wordByte w 2, wordByte w 3]

/-- Byte `j` of `le64_bytes v` (R11). -/
def le64Byte (v : Dword) (j : Nat) : Byte := v.extractLsb' (8 * j) 8

/-- `le64_bytes` (R11). -/
def le64Bytes (v : Dword) : List Byte := (List.range 8).map (le64Byte v)

/-- `rotl32` (R10). -/
def rotl32 (x : Word) (n : Nat) : Word := (x <<< n) ||| (x >>> (32 - n))

/-! ## Message memory -/

/-- Addresses strictly rising: the one canonical form. No entry can equal what an unlisted address reads as, since an
unlisted address holds no written byte (U1, log 3). -/
abbrev Memory.wf (m : Memory) : Prop := m.Pairwise fun x y => x.1 < y.1

/-- The byte written at `a` since reset, if any. -/
def Memory.written : Memory → Nat → Option Byte
  | [], _ => none
  | (k, b) :: m, a => if k = a then some b else Memory.written m a

/-- Store a byte, keeping the addresses rising. -/
def Memory.write : Memory → Nat → Byte → Memory
  | [], a, b => [(a, b)]
  | (k, c) :: m, a, b =>
    if a < k then (a, b) :: (k, c) :: m
    else if a = k then (a, b) :: m
    else (k, c) :: Memory.write m a b

/-- MAX_MSG_BYTES (R7). -/
def State.maxMsgBytes (s : State) : Nat := s.cfg.maxMsgBytes.val

/-- `MSG[a]`: the byte written last, or the free value an unwritten address reads as (R63, U1, log 3). -/
def State.msgByte (s : State) (a : Nat) : Byte :=
  (Memory.written s.MSG a).getD (Config.unwrittenByte s.cfg.unit s.epoch a)

/-! ## The sequencer's position -/

/-- The 3-bit phase code (R28, 30_encoding R94). -/
def Phase.code : Phase → BitVec 3
  | .idle => 0
  | .load => 1
  | .round => 2
  | .fold => 3
  | .encode => 4
  | .done => 5
  | .fault => 6

/-- The phase of a code; code 7 is unused (R94). -/
def Phase.ofCode (c : BitVec 3) : Option Phase :=
  if c = 0 then some .idle
  else if c = 1 then some .load
  else if c = 2 then some .round
  else if c = 3 then some .fold
  else if c = 4 then some .encode
  else if c = 5 then some .done
  else if c = 6 then some .fault
  else none

/-- BUSY: the phase is LOAD, ROUND, FOLD or ENCODE (R28). -/
def Phase.busy : Phase → Bool
  | .idle => false
  | .load => true
  | .round => true
  | .fold => true
  | .encode => true
  | .done => false
  | .fault => false

/-- BUSY. -/
def State.busy (s : State) : Bool := s.phase.busy

/-- The selection word SEL9 = (phase code, RI) (30_encoding R102). -/
def State.sel9 (s : State) : BitVec 9 := s.phase.code ++ s.RI

/-! ## Host errors, faults, and the way out of a fault -/

/-- The cause code shown in ERRCODE (R261). -/
def HostCause.code : HostCause → BitVec 8
  | .busyWrite => 1
  | .illegalCmd => 2
  | .cmdInFault => 3
  | .roWrite => 4
  | .msgRange => 5

/-- The fault code shown in ERRCODE (R251). -/
def FaultCode.code : FaultCode → BitVec 8
  | .lenRange => 1
  | .padAlign => 2
  | .indexRange => 3

/-- `hosterr(cause)` (R262): the first cause since reset or CLEAR is kept, later ones are dropped. -/
def hostError (cause : HostCause) (s : State) : State :=
  { s with
    HOSTERR := true
    HOSTERR_CAUSE := if s.HOSTERR then s.HOSTERR_CAUSE else cause.code }

/-- `raise Fault(code)` (R256): FCODE and the FAULT phase, and nothing else. -/
def raiseFault (code : FaultCode) (s : State) : State :=
  { s with FCODE := code.code, phase := .fault }

/-- The working registers become don't-care (R229, R281, U2): each takes a free value. DESIGN CHOICE (safe), log 5. -/
def forgetWorking (s : State) : State :=
  let word := Config.dontCareWord s.cfg.unit s.fresh
  let dword := Config.dontCareDword s.cfg.unit s.fresh
  { s with
    abcd := ⟨word 0, word 1, word 2, word 3⟩
    orig := ⟨word 4, word 5, word 6, word 7⟩
    M := Vector.ofFn fun w : Fin 16 => word (8 + w.val)
    RI := Config.dontCareRI s.cfg.unit s.fresh
    BLK := dword 0
    LENL := dword 1
    PLEN := dword 2
    fresh := s.fresh + 1 }

/-- IDLE with no error record: what CLEAR writes, and the way out of FAULT (R229, R270). -/
def returnToIdle (s : State) : State :=
  { s with phase := .idle, FCODE := 0, HOSTERR := false, HOSTERR_CAUSE := 0 }

/-- The reset step (R281): IDLE, no error record, LEN zero; the working registers and MSG are unspecified. DIGEST and
HEX are unspecified too, as every read of them outside DONE is (log 6). -/
def resetStep (s : State) : State :=
  { forgetWorking (returnToIdle s) with LEN_LO := 0, LEN_HI := 0, MSG := [], epoch := s.epoch + 1 }

/-- A read returns a value to the host and changes no state of the block (20_memory R69). -/
def answer (r : Reply) (s : State) : State := { s with reply := r }

/-- `LEN = LEN_HI * 2^32 + LEN_LO` (10_state R36). -/
def State.len (s : State) : Nat := s.LEN_HI.toNat * 2 ^ 32 + s.LEN_LO.toNat

end Sys2Proof.Machine
end

