-- ==== Sys2Proof/Machine/Operands.lean ====
section
/-! DEFINITION. Operand assembly: the padded stream LOAD reads (41_framer R145), the operands of a round (30_encoding
R96), and the bytes and characters ENCODE writes (43_encoder R200 to R202). -/

namespace Sys2Proof.Machine

open Sys2Proof

/-! ## Framer -/

/-- The padded length of an `l`-byte message (R141 step 1, R146). R146 adds that PLEN is at most 2^61 + 63, but its own
formula gives 2^61 + 64 for the eight longest lengths, 2^61 - 8 to 2^61 - 1. DESIGN CHOICE (unsafe at those lengths): the
formula is followed; its value fits PLEN's 64 bits. Log 21. -/
def paddedLength (l : Nat) : Nat := ((l + 8) / 64 + 1) * 64

/-- PAD[j] (R145), for `j` in [0, PLEN); outside it the spec gives no value (a free value, log 13). -/
def State.padByte (s : State) (j : Nat) : Byte :=
  if s.PLEN.toNat ≤ j then Config.padBeyond s.cfg.unit j
  else if j < s.LENL.toNat then s.msgByte j
  else if j = s.LENL.toNat then 0x80
  else if s.PLEN.toNat - 8 ≤ j then
    le64Byte (BitVec.ofNat 64 (s.LENL.toNat * 8)) (j - (s.PLEN.toNat - 8))
  else 0x00

/-- The little-endian word `w` of the current block (R97, R161). -/
def State.blockWord (s : State) (w : Nat) : Word :=
  le32 (s.padByte (64 * s.BLK.toNat + 4 * w)) (s.padByte (64 * s.BLK.toNat + 4 * w + 1))
    (s.padByte (64 * s.BLK.toNat + 4 * w + 2)) (s.padByte (64 * s.BLK.toNat + 4 * w + 3))

/-! ## Rounds -/

/-- The four groups of 16 rounds (42_compressor R165). -/
inductive Group where
  | F
  | G
  | H
  | I
  deriving DecidableEq, Repr

/-- The group's number, RI[5:4] (30_encoding R95). -/
def Group.code : Group → BitVec 2
  | .F => 0b00
  | .G => 0b01
  | .H => 0b10
  | .I => 0b11

/-- The group of round `i`, `i >> 4` (R165). -/
def Group.ofRound (i : Nat) : Group :=
  if i / 16 = 0 then .F else if i / 16 = 1 then .G else if i / 16 = 2 then .H else .I

/-- The nonlinear functions (R166 to R169). -/
def roundFunction : Group → Word → Word → Word → Word
  | .F, b, c, d => (b &&& c) ||| (~~~b &&& d)
  | .G, b, c, d => (b &&& d) ||| (c &&& ~~~d)
  | .H, b, c, d => b ^^^ c ^^^ d
  | .I, b, c, d => c ^^^ (b ||| ~~~d)

/-- The message-word index `k` (R166 to R169). -/
def wordIndex : Group → Nat → Nat
  | .F, i => i
  | .G, i => (5 * i + 1) % 16
  | .H, i => (3 * i + 5) % 16
  | .I, i => (7 * i) % 16

/-- SIDX = group*4 + (i & 3) (R95, R128). -/
def shiftIndex (g : Group) (i : Nat) : Nat := g.code.toNat * 4 + i % 4

/-- One round's update of the state words, from the message word, round constant and shift amount (R170). -/
def roundUpdate (g : Group) (m t : Word) (n : Nat) (q : Quad) : Quad :=
  ⟨q.D, q.B + rotl32 (q.A + roundFunction g q.B q.C q.D + m + t) n, q.B, q.C⟩

/-- FOLD's four independent additions (R176, R177). -/
def addQuads (q o : Quad) : Quad := ⟨q.A + o.A, q.B + o.B, q.C + o.C, q.D + o.D⟩

/-- The initialization vector (R164). -/
def initialVector : Quad := ⟨0x67452301, 0xefcdab89, 0x98badcfe, 0x10325476⟩

/-! ## Encoder -/

/-- The 16 digest bytes (R200). -/
def serialize (q : Quad) : List Byte :=
  le32Bytes q.A ++ le32Bytes q.B ++ le32Bytes q.C ++ le32Bytes q.D

/-- The ASCII code of a nibble's lowercase hex digit (R202). UNVERIFIED (the spec gives the codes and marks them "from general knowledge,
not in source", G2), unsafe, log 11. -/
def hexDigit (v : BitVec 4) : Byte :=
  if v.toNat ≤ 9 then 0x30 + v.setWidth 8 else 0x61 + (v.setWidth 8 - 10)

/-- Two hex characters for each byte, high nibble first (R201, R203). -/
def hexString (bytes : List Byte) : List Byte :=
  bytes.flatMap fun b => [hexDigit (b.extractLsb' 4 4), hexDigit (b.extractLsb' 0 4)]

/-- Register `w` of bytes packed four to a word, the first in bits 7:0 (R204, R206). -/
def packedWord (bytes : List Byte) (w : Nat) : Word :=
  le32 (bytes.getD (4 * w) 0) (bytes.getD (4 * w + 1) 0) (bytes.getD (4 * w + 2) 0) (bytes.getD (4 * w + 3) 0)

end Sys2Proof.Machine
end

