-- ==== Sys2Proof/Machine/Sequencer.lean ====
section
/-! DEFINITION. The sequencer's micro-operations (42_compressor R160 to R180, 43_encoder R207). Each takes effect when
SEL9 selects it (30_encoding R102); where it is not selected the sequencer has no such step and nothing changes
(DEDUCED, safe, log 8). -/

namespace Sys2Proof.Machine

open Sys2Proof

/-- LOAD's effect (R160 to R162). -/
def loadBlock (s : State) : State :=
  { s with
    M := Vector.ofFn fun w : Fin 16 => s.blockWord w.val
    orig := s.abcd
    RI := 0
    phase := .round }

/-- ROUND's effect (R170): with `i = RI`, the state words take the round's update, and RI counts on except after round
63, which moves the phase to FOLD. An index out of range raises INDEX_RANGE instead (R171; unreachable, kept as R255
asks). -/
def roundStep (g : Group) (s : State) : State :=
  let i := s.RI.toNat
  match s.M[wordIndex g i]?, tTable[i]?, shiftTable[shiftIndex g i]? with
  | some m, some t, some n =>
    { s with
      abcd := roundUpdate g m t n s.abcd
      RI := if i = 63 then s.RI else s.RI + 1
      phase := if i = 63 then .fold else s.phase }
  | _, _, _ => raiseFault .indexRange s

/-- SEL9 selects the round at position `pos` of group `g` (R95, R102). -/
def State.selectsRound (s : State) (g : Group) (pos : BitVec 4) : Bool :=
  decide (s.phase = .round) && decide (s.RI = g.code ++ pos)

/-- FOLD's effect (R176, R180): BLK counts on after the last block too, so it is NB in ENCODE and DONE. 10_state R21 says
that BLK stops at NB - 1. DEDUCED (R26, R176, R180 and the end state of 95_test_vectors P2 agree), log 22. -/
def foldBlock (s : State) : State :=
  { s with
    abcd := addQuads s.abcd s.orig
    phase := if (s.BLK.toNat + 1) * 64 = s.PLEN.toNat then .encode else .load
    BLK := s.BLK + 1 }

/-- ENCODE's effect (R207): all the writes and the phase change are one step. -/
def encodeDigest (s : State) : State :=
  { s with
    DIGEST := Vector.ofFn fun w : Fin 4 => packedWord (serialize s.abcd) w.val
    HEX := Vector.ofFn fun w : Fin 8 => packedWord (hexString (serialize s.abcd)) w.val
    phase := .done }

/-- LOAD (R160). -/
def execLoad (s : State) : Host.Outcome State Fault Refusal :=
  .next (if s.phase = .load then loadBlock s else s)

/-- ROUND_F (R172): rounds 0 to 15. -/
def execRoundF (pos : BitVec 4) (s : State) : Host.Outcome State Fault Refusal :=
  .next (if s.selectsRound .F pos then roundStep .F s else s)

/-- ROUND_G (R173): rounds 16 to 31. -/
def execRoundG (pos : BitVec 4) (s : State) : Host.Outcome State Fault Refusal :=
  .next (if s.selectsRound .G pos then roundStep .G s else s)

/-- ROUND_H (R174): rounds 32 to 47. -/
def execRoundH (pos : BitVec 4) (s : State) : Host.Outcome State Fault Refusal :=
  .next (if s.selectsRound .H pos then roundStep .H s else s)

/-- ROUND_I (R175): rounds 48 to 63. -/
def execRoundI (pos : BitVec 4) (s : State) : Host.Outcome State Fault Refusal :=
  .next (if s.selectsRound .I pos then roundStep .I s else s)

/-- FOLD (R176). -/
def execFold (s : State) : Host.Outcome State Fault Refusal :=
  .next (if s.phase = .fold then foldBlock s else s)

/-- ENCODE (R207). -/
def execEncode (s : State) : Host.Outcome State Fault Refusal :=
  .next (if s.phase = .encode then encodeDigest s else s)

end Sys2Proof.Machine
end

