-- ==== Sys2Proof/Machine/Commands.lean ====
section
/-! DEFINITION. The commands START and CLEAR (44_host_commands R224, R229). -/

namespace Sys2Proof.Machine

open Sys2Proof

/-- START once RegWrite has reached it, so the phase is not BUSY (R224). A fault leaves no other effect (R256). -/
def startCommand (s : State) : State :=
  if s.phase = .fault then hostError .cmdInFault s
  else if s.maxMsgBytes < s.len then raiseFault .lenRange s
  else if paddedLength s.len % 64 ≠ 0 then raiseFault .padAlign s
  else
    { s with
      FCODE := 0
      LENL := BitVec.ofNat 64 s.len
      PLEN := BitVec.ofNat 64 (paddedLength s.len)
      abcd := initialVector
      BLK := 0
      phase := .load }

/-- CLEAR once RegWrite has reached it (R229): IDLE, no error record; the working registers become don't-care. -/
def clearCommand (s : State) : State := forgetWorking (returnToIdle s)

/-- START: the value 0x00000001 written to CMD. While BUSY it is refused (R226). -/
def execStart (s : State) : Host.Outcome State Fault Refusal :=
  .next (if s.busy then hostError .busyWrite s else startCommand s)

/-- CLEAR: the value 0x00000002 written to CMD. While BUSY it is refused (R226). -/
def execClear (s : State) : Host.Outcome State Fault Refusal :=
  .next (if s.busy then hostError .busyWrite s else clearCommand s)

end Sys2Proof.Machine
end

