-- ==== Sys2Proof/Machine/Flags.lean ====
section
/-! DEFINITION. The block has no arithmetic flags (10_state R44). Its status bits are the fields of STATUS and ERRCODE,
and what a host register reads as. -/

namespace Sys2Proof.Machine

open Sys2Proof

/-- STATUS (10_state R32): 31:7 zero, 6:4 PHASE, 3 HOSTERR, 2 FAULT, 1 DONE, 0 BUSY. -/
def State.STATUS (s : State) : Word :=
  0#25 ++ s.phase.code ++ BitVec.ofBool s.HOSTERR ++ BitVec.ofBool (decide (s.phase = .fault))
    ++ BitVec.ofBool (decide (s.phase = .done)) ++ BitVec.ofBool s.busy

/-- ERRCODE (10_state R33): 31:16 zero, 15:8 HOSTERR_CAUSE (0 if HOSTERR = 0), 7:0 FAULT_CODE (0 if the phase is not
FAULT). DEDUCED (safe): R35's "shows FCODE" agrees in every state that a run reaches, log 7. -/
def State.ERRCODE (s : State) : Word :=
  0#16 ++ (if s.HOSTERR then s.HOSTERR_CAUSE else 0#8) ++ (if s.phase = .fault then s.FCODE else 0#8)

/-- What host register `n` reads as (44_host_commands R220): none where the spec leaves the value unspecified, that is
DIGEST and HEX outside DONE (R37, R38). -/
def State.hostRegister (s : State) (n : BitVec 6) : Option Word :=
  let k := n.toNat
  if k = 1 then some s.STATUS
  else if k = 2 then some s.ERRCODE
  else if k = 3 then some s.LEN_LO
  else if k = 4 then some s.LEN_HI
  else if 8 ≤ k ∧ k < 12 then (if s.phase = .done then s.DIGEST[k - 8]? else none)
  else if 16 ≤ k ∧ k < 24 then (if s.phase = .done then s.HEX[k - 16]? else none)
  else some 0

end Sys2Proof.Machine
end

