-- ==== Sys2Proof/Machine/Transactions.lean ====
section
/-! DEFINITION. The host transactions RegRead, RegWrite, MsgRead and MsgWrite (44_host_commands R220 to R223). -/

namespace Sys2Proof.Machine

open Sys2Proof

/-- RegRead (R220): allowed in every phase, no side effect (20_memory R69). Where the value is unspecified the host gets
a free value, another one at each read (U3, log 6). -/
def execRegRead (n : BitVec 6) (s : State) : Host.Outcome State Fault Refusal :=
  .next (match s.hostRegister n with
    | some v => answer (.word v) s
    | none => answer (.word (Config.unspecifiedWord s.cfg.unit s.fresh)) { s with fresh := s.fresh + 1 })

/-- A write of `v` to CMD while not BUSY (R221, R100, R230). -/
def writeCommand (v : Word) (s : State) : State :=
  if v = 0x00000001#32 then startCommand s
  else if v = 0x00000002#32 then clearCommand s
  else hostError .illegalCmd s

/-- RegWrite (R221), the checks in the order of R263. -/
def execRegWrite (n : BitVec 6) (v : Word) (s : State) : Host.Outcome State Fault Refusal :=
  .next (
    if n ≠ 0#6 ∧ n ≠ 3#6 ∧ n ≠ 4#6 then hostError .roWrite s
    else if s.busy then hostError .busyWrite s
    else if n = 3#6 then { s with LEN_LO := v }
    else if n = 4#6 then { s with LEN_HI := v }
    else writeCommand v s)

/-- MsgRead (R222, R63): 0x00 from MAX_MSG_BYTES on; allowed in every phase, no side effect. -/
def execMsgRead (a : Nat) (s : State) : Host.Outcome State Fault Refusal :=
  .next (answer (.byte (if a < s.maxMsgBytes then s.msgByte a else 0x00)) s)

/-- MsgWrite (R223, R62), the checks in the order of R263. -/
def execMsgWrite (a : Nat) (b : Byte) (s : State) : Host.Outcome State Fault Refusal :=
  .next (
    if s.busy then hostError .busyWrite s
    else if s.maxMsgBytes ≤ a then hostError .msgRange s
    else { s with MSG := Memory.write s.MSG a b })

end Sys2Proof.Machine
end

