-- ==== Sys2Proof/Syntax.lean ====
section
/-! DEFINITION. The instructions: one constructor for each row of spec/opcode_table.json (30_encoding R90). -/

namespace Sys2Proof

/-- "In this spec, instruction means a host transaction, a host command, or a sequencer micro-operation" (00_scope,
glossary). A message address is a natural number (20_memory R61); that it fits the record is WellFormed's check. -/
inductive Instr where
  /-- RegRead: read host register `n` (R220). -/
  | regRead (n : BitVec 6)
  /-- RegWrite: write `v` to host register `n` (R221). -/
  | regWrite (n : BitVec 6) (v : Word)
  /-- MsgRead: read message byte `a` (R222). -/
  | msgRead (a : Nat)
  /-- MsgWrite: write `b` to message byte `a` (R223). -/
  | msgWrite (a : Nat) (b : Byte)
  /-- START: begin one digest computation (R224). -/
  | start
  /-- CLEAR: return to IDLE and clear the error records (R229). -/
  | clear
  /-- LOAD: load block BLK into M (R160). -/
  | load
  /-- ROUND_F: the round at position `pos` of group 0 (R172). -/
  | roundF (pos : BitVec 4)
  /-- ROUND_G: the round at position `pos` of group 1 (R173). -/
  | roundG (pos : BitVec 4)
  /-- ROUND_H: the round at position `pos` of group 2 (R174). -/
  | roundH (pos : BitVec 4)
  /-- ROUND_I: the round at position `pos` of group 3 (R175). -/
  | roundI (pos : BitVec 4)
  /-- FOLD: add OA to OD into A to D (R176). -/
  | fold
  /-- ENCODE: serialize A to D into DIGEST and HEX (R207). -/
  | encode
  deriving DecidableEq, Repr

end Sys2Proof
end

