-- ==== Sys2Proof/Machine/Dispatch.lean ====
section
/-! DEFINITION. One arm for each instruction. -/

namespace Sys2Proof.Machine

open Sys2Proof

def exec (i : Instr) (s : State) : Host.Outcome State Fault Refusal :=
  match i with
  | .regRead n => Sys2Proof.Machine.execRegRead n s
  | .regWrite n v => Sys2Proof.Machine.execRegWrite n v s
  | .msgRead a => Sys2Proof.Machine.execMsgRead a s
  | .msgWrite a b => Sys2Proof.Machine.execMsgWrite a b s
  | .start => Sys2Proof.Machine.execStart s
  | .clear => Sys2Proof.Machine.execClear s
  | .load => Sys2Proof.Machine.execLoad s
  | .roundF pos => Sys2Proof.Machine.execRoundF pos s
  | .roundG pos => Sys2Proof.Machine.execRoundG pos s
  | .roundH pos => Sys2Proof.Machine.execRoundH pos s
  | .roundI pos => Sys2Proof.Machine.execRoundI pos s
  | .fold => Sys2Proof.Machine.execFold s
  | .encode => Sys2Proof.Machine.execEncode s

end Sys2Proof.Machine
end

