-- ==== Sys2Proof/WellFormed.lean ====
section
/-! DEFINITION. Which instructions have an encoding. Register indices, values, bytes and round positions fit their
fields by type; a message address must fit ADDR's 62 bits (30_encoding R91). -/

namespace Sys2Proof

/-- The instruction's operands fit the fields its format gives them. -/
def Instr.wellFormed : Instr → Bool
  | .regRead _ => true
  | .regWrite _ _ => true
  | .msgRead a => decide (a < 2 ^ 62)
  | .msgWrite a _ => decide (a < 2 ^ 62)
  | .start => true
  | .clear => true
  | .load => true
  | .roundF _ => true
  | .roundG _ => true
  | .roundH _ => true
  | .roundI _ => true
  | .fold => true
  | .encode => true

end Sys2Proof
end

