-- ==== Sys2Proof/Decode.lean ====
section
/-! DEFINITION. The three formats of spec/opcode_table.json, the decoder (total, refusing by name), the encoder, and
the opcode table itself as rows of match and mask (30_encoding R91 to R102). -/

namespace Sys2Proof

/-- What the decoder reads: a TXN128 record (R91), a CMD32 word (R93) or a SEL9 selection word (R102). -/
inductive Record where
  | txn (bits : BitVec 128)
  | cmd (bits : BitVec 32)
  | sel (bits : BitVec 9)
  deriving DecidableEq, Repr

/-- Why a record is no instruction. -/
inductive DecodeError where
  /-- a TXN128 record with a must-be-zero bit set: "not a transaction" (R91, U6) -/
  | mustBeZero
  /-- a CMD32 value other than START and CLEAR (R100, R101) -/
  | illegalCommand
  /-- a SEL9 word whose phase code is IDLE, DONE, FAULT or 7: the sequencer has no step (R102, U10) -/
  | noStep
  deriving DecidableEq, Repr

/-- TXN128 (R91): KIND 127:126, ADDR 125:64, must-be-zero 63:38, IDX 37:32, DATA 31:0. -/
def decodeTxn (r : BitVec 128) : Except DecodeError Instr :=
  let kind : BitVec 2 := r.extractLsb' 126 2
  let addr : BitVec 62 := r.extractLsb' 64 62
  let zero : BitVec 26 := r.extractLsb' 38 26
  let idx : BitVec 6 := r.extractLsb' 32 6
  let data : Word := r.extractLsb' 0 32
  if zero ≠ 0#26 then .error .mustBeZero
  else if kind = 0b00#2 then
    if addr = 0#62 ∧ data = 0#32 then .ok (.regRead idx) else .error .mustBeZero
  else if kind = 0b01#2 then
    if addr = 0#62 then .ok (.regWrite idx data) else .error .mustBeZero
  else if kind = 0b10#2 then
    if idx = 0#6 ∧ data = 0#32 then .ok (.msgRead addr.toNat) else .error .mustBeZero
  else
    if idx = 0#6 ∧ data.extractLsb' 8 24 = 0#24 then .ok (.msgWrite addr.toNat (data.extractLsb' 0 8))
    else .error .mustBeZero

/-- CMD32 (R100): the whole 32-bit value is the command code. -/
def decodeCmd (w : BitVec 32) : Except DecodeError Instr :=
  if w = 0x00000001#32 then .ok .start
  else if w = 0x00000002#32 then .ok .clear
  else .error .illegalCommand

/-- SEL9 (R102): the phase code in bits 8:6 selects the micro-operation; for ROUND, RI[5:4] selects the group. -/
def decodeSel (w : BitVec 9) : Except DecodeError Instr :=
  let phase : BitVec 3 := w.extractLsb' 6 3
  let group : BitVec 2 := w.extractLsb' 4 2
  let pos : BitVec 4 := w.extractLsb' 0 4
  if phase = 1#3 then .ok .load
  else if phase = 2#3 then
    if group = 0b00#2 then .ok (.roundF pos)
    else if group = 0b01#2 then .ok (.roundG pos)
    else if group = 0b10#2 then .ok (.roundH pos)
    else .ok (.roundI pos)
  else if phase = 3#3 then .ok .fold
  else if phase = 4#3 then .ok .encode
  else .error .noStep

/-- The decoder: total on any bits of the three formats. -/
def decode : Record → Except DecodeError Instr
  | .txn r => decodeTxn r
  | .cmd w => decodeCmd w
  | .sel w => decodeSel w

/-- A TXN128 record from its fields (R91). -/
def txnRecord (kind : BitVec 2) (addr : BitVec 62) (idx : BitVec 6) (data : Word) : BitVec 128 :=
  kind ++ addr ++ 0#26 ++ idx ++ data

/-- A SEL9 word from the phase code and RI (R102). -/
def selWord (phase : BitVec 3) (ri : BitVec 6) : BitVec 9 := phase ++ ri

/-- The encoder. LOAD, FOLD and ENCODE do not use RI; their words are written with RI = 0. -/
def encode : Instr → Record
  | .regRead n => .txn (txnRecord 0b00#2 0#62 n 0#32)
  | .regWrite n v => .txn (txnRecord 0b01#2 0#62 n v)
  | .msgRead a => .txn (txnRecord 0b10#2 (BitVec.ofNat 62 a) 0#6 0#32)
  | .msgWrite a b => .txn (txnRecord 0b11#2 (BitVec.ofNat 62 a) 0#6 (0#24 ++ b))
  | .start => .cmd 0x00000001#32
  | .clear => .cmd 0x00000002#32
  | .load => .sel (selWord 1#3 0#6)
  | .roundF pos => .sel (selWord 2#3 (0b00#2 ++ pos))
  | .roundG pos => .sel (selWord 2#3 (0b01#2 ++ pos))
  | .roundH pos => .sel (selWord 2#3 (0b10#2 ++ pos))
  | .roundI pos => .sel (selWord 2#3 (0b11#2 ++ pos))
  | .fold => .sel (selWord 3#3 0#6)
  | .encode => .sel (selWord 4#3 0#6)

/-- The instruction the decoder reads from the first `nbits` bits of a table word: TXN128 has 128 bits, CMD32 has 32,
and SEL9's nine bits come in the sixteen of two whole bytes. -/
def decodeTableWord (nbits w : Nat) : Option Instr :=
  if nbits ≤ 16 then
    if w < 2 ^ 9 then (decode (.sel (BitVec.ofNat 9 w))).toOption else none
  else if nbits ≤ 32 then
    if w < 2 ^ 32 then (decode (.cmd (BitVec.ofNat 32 w))).toOption else none
  else
    if w < 2 ^ 128 then (decode (.txn (BitVec.ofNat 128 w))).toOption else none

/-- The three formats of the opcode table. -/
inductive Format where
  | txn128
  | cmd32
  | sel9
  deriving DecidableEq, Repr

/-- One row of spec/opcode_table.json: a word of this format is this instruction when `word &&& mask = bits`. -/
structure OpcodeRow where
  mnemonic : String
  format : Format
  bits : Nat
  mask : Nat
  deriving DecidableEq, Repr

/-- spec/opcode_table.json, in its order. -/
def opcodeTable : List OpcodeRow :=
  [⟨"RegRead", .txn128, 0x00000000000000000000000000000000, 0xffffffffffffffffffffffc0ffffffff⟩,
   ⟨"RegWrite", .txn128, 0x40000000000000000000000000000000, 0xffffffffffffffffffffffc000000000⟩,
   ⟨"MsgRead", .txn128, 0x80000000000000000000000000000000, 0xc000000000000000ffffffffffffffff⟩,
   ⟨"MsgWrite", .txn128, 0xc0000000000000000000000000000000, 0xc000000000000000ffffffffffffff00⟩,
   ⟨"START", .cmd32, 0x00000001, 0xffffffff⟩,
   ⟨"CLEAR", .cmd32, 0x00000002, 0xffffffff⟩,
   ⟨"LOAD", .sel9, 0x040, 0x1c0⟩]
  ++
  [⟨"ROUND_F", .sel9, 0x080, 0x1f0⟩,
   ⟨"ROUND_G", .sel9, 0x090, 0x1f0⟩,
   ⟨"ROUND_H", .sel9, 0x0a0, 0x1f0⟩,
   ⟨"ROUND_I", .sel9, 0x0b0, 0x1f0⟩,
   ⟨"FOLD", .sel9, 0x0c0, 0x1c0⟩,
   ⟨"ENCODE", .sel9, 0x100, 0x1c0⟩]

/-- The mnemonic of the instruction's row. -/
def Instr.mnemonic : Instr → String
  | .regRead _ => "RegRead"
  | .regWrite _ _ => "RegWrite"
  | .msgRead _ => "MsgRead"
  | .msgWrite _ _ => "MsgWrite"
  | .start => "START"
  | .clear => "CLEAR"
  | .load => "LOAD"
  | .roundF _ => "ROUND_F"
  | .roundG _ => "ROUND_G"
  | .roundH _ => "ROUND_H"
  | .roundI _ => "ROUND_I"
  | .fold => "FOLD"
  | .encode => "ENCODE"

/-- A record's format. -/
def Record.format : Record → Format
  | .txn _ => .txn128
  | .cmd _ => .cmd32
  | .sel _ => .sel9

/-- A record's bits as one number, bit 0 the least significant. -/
def Record.toNat : Record → Nat
  | .txn r => r.toNat
  | .cmd w => w.toNat
  | .sel w => w.toNat

/-- The record is one of the row's words. -/
def OpcodeRow.covers (row : OpcodeRow) (r : Record) : Bool :=
  decide (row.format = r.format) && decide (r.toNat &&& row.mask = row.bits)

end Sys2Proof
end

