-- ==== Sys2Proof/Machine/Fetch.lean ====
section
/-! DEFINITION. Which step comes next (20_memory R70, 42_compressor R180, 70_reset_and_hazards R280), and the instruction
it runs. -/

namespace Sys2Proof.Machine

open Sys2Proof

/-- What the next step does. -/
inductive Action where
  /-- run this instruction -/
  | run (i : Instr)
  /-- the environment's reset -/
  | reset
  /-- no step of the block: nothing but the input entry is used up -/
  | idle
  deriving DecidableEq, Repr

/-- A TXN128 record: its transaction, or nothing if a must-be-zero bit is set (R91, U6, log 9). -/
def hostAction (record : BitVec 128) : Action :=
  match decode (.txn record) with
  | .ok i => .run i
  | .error _ => .idle

/-- A CMD32 word written to CMD: its command, or the RegWrite that records ILLEGAL_CMD (R100, R230). -/
def commandAction (word : BitVec 32) : Action :=
  match decode (.cmd word) with
  | .ok i => .run i
  | .error _ => .run (.regWrite 0#6 word)

/-- The sequencer's turn: the micro-operation SEL9 selects; in IDLE, DONE and FAULT it has no step (R102, R180). -/
def sequencerAction (s : State) : Action :=
  match decode (.sel s.sel9) with
  | .ok i => .run i
  | .error _ => .idle

/-- The next step: the first entry of `inputs`; with no entry left the sequencer steps, or the block stays idle
(R183, R277, log 2). -/
def State.nextAction (s : State) : Action :=
  match s.inputs with
  | [] => sequencerAction s
  | .host record :: _ => hostAction record
  | .command word :: _ => commandAction word
  | .sequencer :: _ => sequencerAction s
  | .reset :: _ => .reset

/-- The state with the first input entry used up. -/
def State.consume (s : State) : State := { s with inputs := s.inputs.tail }

/-- `s` with a word of the opcode table placed where the next step takes its instruction from: a TXN128 record or CMD32
word first in `inputs`, or, for a SEL9 word, the phase and RI it is read from and a turn for the sequencer. -/
def placeWord (s : State) (nbits w : Nat) : State :=
  if nbits ≤ 16 then
    match Phase.ofCode ((BitVec.ofNat 9 w).extractLsb' 6 3) with
    | some p => { s with phase := p, RI := (BitVec.ofNat 9 w).extractLsb' 0 6, inputs := .sequencer :: s.inputs }
    | none => { s with inputs := .sequencer :: s.inputs }
  else if nbits ≤ 32 then { s with inputs := .command (BitVec.ofNat 32 w) :: s.inputs }
  else { s with inputs := .host (BitVec.ofNat 128 w) :: s.inputs }

end Sys2Proof.Machine
end

