-- ==== Sys2Proof/Machine/Step.lean ====
section
/-! DEFINITION. One step of the interleaving (20_memory R68, R70). -/

namespace Sys2Proof.Machine

open Sys2Proof

/-- One indivisible step: an instruction of the host or of the sequencer, a reset, or nothing. -/
def step (s : State) : Host.Outcome State Fault Refusal :=
  match s.nextAction with
  | .run i => exec i s.consume
  | .reset => .next (resetStep s.consume)
  | .idle => .next s.consume

/-- A word of the opcode table placed so that the very next step runs it (log 2 says how a run comes about from reset). -/
def State.withFetchWord (s : State) (nbits w : Nat) : State := placeWord s nbits w

end Sys2Proof.Machine
end

