-- ==== Sys2Proof/Machine/Blocks.lean ====
section
/-! DEFINITION. Several blocks side by side (20_memory R79, 60_exceptions R275): each has its own registers, MSG and
sequencer, and they share only the read-only tables. -/

namespace Sys2Proof.Machine

open Sys2Proof

/-- NUM_INSTANCES blocks (00_scope R7). -/
abbrev Blocks := List State

/-- The blocks carry different numbers, so that nothing relates what the spec leaves unspecified in one of them and in
another (93 U1 to U3). DESIGN CHOICE, log 14. -/
abbrev Blocks.distinct (blocks : Blocks) : Prop := (blocks.map fun s => s.cfg.unit).Nodup

/-- One step of block `k`; the others keep their state. Where there is no block `k`, nothing happens. -/
def stepBlock (k : Nat) (blocks : Blocks) : Host.Outcome Blocks Fault Refusal :=
  match blocks[k]? with
  | none => .next blocks
  | some s =>
    match step s with
    | .next t => .next (blocks.set k t)
    | .fault r => .fault r
    | .refused r => .refused r

end Sys2Proof.Machine
end

