-- ==== Sys2Proof/Machine/HostProgram.lean ====
section
/-! DEFINITION. The host-program notation and its pseudo-instructions (30_encoding R104, R105). -/

namespace Sys2Proof.Machine

open Sys2Proof

/-- A host register by name, or `R<n>` by index (R104). -/
inductive RegName where
  | CMD
  | STATUS
  | ERRCODE
  | LEN_LO
  | LEN_HI
  | DIGEST (w : BitVec 2)
  | HEX (w : BitVec 3)
  | R (n : BitVec 6)
  deriving DecidableEq, Repr

/-- index(reg) (R104, 10_state R30). -/
def RegName.index : RegName → BitVec 6
  | .CMD => 0
  | .STATUS => 1
  | .ERRCODE => 2
  | .LEN_LO => 3
  | .LEN_HI => 4
  | .DIGEST w => 8 + w.setWidth 6
  | .HEX w => 16 + w.setWidth 6
  | .R n => n

/-- One line of a host program (R104). -/
inductive HostLine where
  | WREG (reg : RegName) (v : Word)
  | RREG (reg : RegName)
  | WMSG (a : BitVec 62) (b : Byte)
  | RMSG (a : BitVec 62)
  deriving DecidableEq, Repr

/-- A line that reads: what it returns is the line's result (R104). -/
def HostLine.reads : HostLine → Bool
  | .WREG _ _ => false
  | .RREG _ => true
  | .WMSG _ _ => false
  | .RMSG _ => true

/-- The line's TXN128 record (R104). -/
def HostLine.record : HostLine → BitVec 128
  | .WREG reg v => txnRecord 0b01#2 0#62 reg.index v
  | .RREG reg => txnRecord 0b00#2 0#62 reg.index 0#32
  | .WMSG a b => txnRecord 0b11#2 a 0#6 (0#24 ++ b)
  | .RMSG a => txnRecord 0b10#2 a 0#6 0#32

/-- The symbol START (R104). -/
def symSTART : Word := 0x00000001

/-- The symbol CLEAR (R104). -/
def symCLEAR : Word := 0x00000002

/-- One instruction of a host program: a line, or a POLL, whose number of reads is known only as it runs (R105). -/
inductive HostCommand where
  | line (l : HostLine)
  | POLL (reg : RegName) (mask : Word)
  deriving DecidableEq, Repr

/-- The line that the instruction presents at each of its turns: a POLL is `RREG reg`, again and again (R105). -/
def HostCommand.presents : HostCommand → HostLine
  | .line l => l
  | .POLL reg _ => .RREG reg

/-- A poll ends at the first read whose value has a bit of the mask set (R105). -/
def pollEnds (mask result : Word) : Bool := decide (result &&& mask ≠ 0)

/-- The program left after a turn of its first instruction, which returned `reply`: a line is done with, and a POLL stays
until its read ends it (R105). -/
def HostCommand.leaves (command : HostCommand) (reply : Reply) (rest : List HostCommand) : List HostCommand :=
  match command, reply with
  | .line _, _ => rest
  | .POLL reg mask, .word result => if pollEnds mask result then rest else .POLL reg mask :: rest
  | .POLL reg mask, .byte _ => .POLL reg mask :: rest
  | .POLL reg mask, .nothing => .POLL reg mask :: rest

/-- `SETLEN n` (R105). -/
def setLen (n : Dword) : List HostLine :=
  [.WREG .LEN_LO (n.extractLsb' 0 32), .WREG .LEN_HI (n.extractLsb' 32 32)]

/-- `LOADMSG a, text`, the text as bytes (R105, R233). An address that ADDR's 62 bits cannot hold has no line in the spec;
here it wraps. DESIGN CHOICE (unsafe there), log 15. -/
def loadMsg (a : Nat) : List Byte → List HostLine
  | [] => []
  | c :: text => .WMSG (BitVec.ofNat 62 a) c :: loadMsg (a + 1) text

/-- `MD5 text` (R105). -/
def md5Program (text : List Byte) : List HostCommand :=
  (loadMsg 0 text ++ setLen (BitVec.ofNat 64 text.length) ++ [HostLine.WREG .CMD symSTART]).map HostCommand.line ++
    [.POLL .STATUS 0x6]

/-- `READDIGEST` (R105). -/
def readDigest : List HostLine := [.RREG (.DIGEST 0), .RREG (.DIGEST 1), .RREG (.DIGEST 2), .RREG (.DIGEST 3)]

/-- `READHEX` (R105). -/
def readHex : List HostLine :=
  [.RREG (.HEX 0), .RREG (.HEX 1), .RREG (.HEX 2), .RREG (.HEX 3),
   .RREG (.HEX 4), .RREG (.HEX 5), .RREG (.HEX 6), .RREG (.HEX 7)]

/-- A host program's lines as input entries, in order. -/
def hostEvents (lines : List HostLine) : List Event := lines.map fun l => .host l.record

end Sys2Proof.Machine
end

