-- ==== Sys2Proof/Machine/Md5.lean ====
section
/-! DEFINITION. The source's function, which the block must compute (00_scope R3): md5_hex = hex ∘ serialize ∘ compress ∘
frame, over lists of bytes, with no registers and no steps. -/

namespace Sys2Proof.Machine.Md5

open Sys2Proof Sys2Proof.Machine

/-- `buf` with `bytes` written at offset `at`. -/
def overwrite (buf : List Byte) (offset : Nat) (bytes : List Byte) : List Byte :=
  buf.take offset ++ bytes ++ buf.drop (offset + bytes.length)

/-- `frame` (41_framer R141), its six steps. -/
def frame (msg : List Byte) : List Byte :=
  let l := msg.length
  let p := paddedLength l
  let buf := List.replicate p (0x00 : Byte)
  let buf := overwrite buf 0 msg
  let buf := overwrite buf l [0x80]
  overwrite buf (p - 8) (le64Bytes (BitVec.ofNat 64 (l * 8)))

/-- Word `w` of block `b` (42_compressor R163). -/
def blockWord (padded : List Byte) (b w : Nat) : Word :=
  le32 (padded.getD (64 * b + 4 * w) 0) (padded.getD (64 * b + 4 * w + 1) 0)
    (padded.getD (64 * b + 4 * w + 2) 0) (padded.getD (64 * b + 4 * w + 3) 0)

/-- `round(i)` (R170) over the block's words. -/
def round (words : Nat → Word) (i : Nat) (q : Quad) : Quad :=
  let g := Group.ofRound i
  roundUpdate g (words (wordIndex g i)) (tTable.getD i 0) (shiftTable.getD (shiftIndex g i) 0) q

/-- The first `n` rounds of a block (R163). -/
def rounds (words : Nat → Word) : Nat → Quad → Quad
  | 0, q => q
  | n + 1, q => round words n (rounds words n q)

/-- The running state before block `b`: the IV, then one fold after another (R163, R185). -/
def chain (padded : List Byte) : Nat → Quad
  | 0 => initialVector
  | b + 1 => addQuads (rounds (blockWord padded b) 64 (chain padded b)) (chain padded b)

/-- `compress` (R163). -/
def compress (padded : List Byte) : Quad := chain padded (padded.length / 64)

/-- `serialize(compress(frame(msg)))`: the 16 digest bytes (R3). -/
def digest (msg : List Byte) : List Byte := serialize (compress (frame msg))

/-- `md5_hex(msg)` (R3): the ASCII codes of its 32 characters. -/
def md5Hex (msg : List Byte) : List Byte := hexString (digest msg)

end Sys2Proof.Machine.Md5

namespace Sys2Proof.Machine

open Sys2Proof

/-- The message a computation hashes: MSG[0 .. LENL) (42_compressor R184). -/
def State.message (s : State) : List Byte := (List.range s.LENL.toNat).map s.msgByte

/-- The 16 bytes the host reads from DIGEST0 to DIGEST3 (R37). -/
def State.digestBytes (s : State) : List Byte := s.DIGEST.toList.flatMap le32Bytes

/-- The 32 characters the host reads from HEX0 to HEX7 (R206). -/
def State.hexChars (s : State) : List Byte := s.HEX.toList.flatMap le32Bytes

end Sys2Proof.Machine
end

