-- ==== Sys2Proof/Safety.lean ====
section
/-! DEFINITION. What a block that follows the rules keeps true, in the terms the statements use. -/

namespace Sys2Proof.Machine

open Sys2Proof

/-- What every step keeps: MSG holds only addresses that exist, in canonical form (20_memory R61); FCODE is nonzero only
in FAULT and then LEN_RANGE's (60_exceptions R252); the cause is zero exactly while HOSTERR is 0 (10_state R33, R34);
and while BUSY the latched length is LEN and fits (R27, R71, R144), PLEN is its padded length (R146), and the current
block lies inside the padded stream (R160), or, in ENCODE, all of it is done (R180). -/
structure State.Inv (s : State) : Prop where
  msg_wf : Memory.wf s.MSG
  msg_range : ∀ c ∈ s.MSG, c.1 < s.maxMsgBytes
  fault_code : s.FCODE = if s.phase = .fault then FaultCode.lenRange.code else 0
  no_cause : s.HOSTERR = false → s.HOSTERR_CAUSE = 0
  cause : s.HOSTERR = true → 1 ≤ s.HOSTERR_CAUSE.toNat ∧ s.HOSTERR_CAUSE.toNat ≤ 5
  latched : s.busy = true → s.LENL.toNat = s.len
  length : s.busy = true → s.LENL.toNat ≤ s.maxMsgBytes
  padded : s.busy = true → s.PLEN.toNat = paddedLength s.LENL.toNat
  inside : s.busy = true → s.phase ≠ .encode → (s.BLK.toNat + 1) * 64 ≤ s.PLEN.toNat
  finished : s.phase = .encode → s.BLK.toNat * 64 = s.PLEN.toNat

/-- How far the computation has come, register by register: A to D, OA to OD and M hold what the source's `compress`
holds at the position (phase, BLK, RI) over `frame(MSG[0 .. LENL))` (42_compressor R163, R184, R185). -/
def State.TracksMd5 (s : State) : Prop :=
  let padded := Md5.frame s.message
  let b := s.BLK.toNat
  match s.phase with
  | .load => s.abcd = Md5.chain padded b
  | .round =>
    (∀ w : Fin 16, s.M[w] = Md5.blockWord padded b w.val) ∧ s.orig = Md5.chain padded b ∧
      s.abcd = Md5.rounds (Md5.blockWord padded b) s.RI.toNat (Md5.chain padded b)
  | .fold =>
    s.orig = Md5.chain padded b ∧ s.abcd = Md5.rounds (Md5.blockWord padded b) 64 (Md5.chain padded b)
  | .encode => s.abcd = Md5.compress padded
  | .idle => True
  | .done => True
  | .fault => True

/-- The number of sequencer steps left to DONE (42_compressor R180, R182): 66 for each block not folded yet, less what
this block has had, and one ENCODE. -/
def State.stepsLeft (s : State) : Nat :=
  let blocks := s.PLEN.toNat / 64 - s.BLK.toNat
  match s.phase with
  | .load => 66 * blocks + 1
  | .round => 66 * blocks - s.RI.toNat
  | .fold => 66 * blocks - 64
  | .encode => 1
  | .idle => 0
  | .done => 0
  | .fault => 0

/-- It is the sequencer's turn: its own entry comes first, or no entry is left (log 2). -/
def State.sequencerTurn (s : State) : Bool :=
  match s.inputs with
  | [] => true
  | .sequencer :: _ => true
  | .host _ :: _ => false
  | .command _ :: _ => false
  | .reset :: _ => false

/-- It is the host's turn. -/
def State.hostTurn (s : State) : Bool :=
  match s.inputs with
  | [] => false
  | .sequencer :: _ => false
  | .host _ :: _ => true
  | .command _ :: _ => true
  | .reset :: _ => false

/-- The next step is the command START, as a CMD32 word or as the RegWrite that carries it (44_host_commands R221). -/
def State.runsStart (s : State) : Bool :=
  decide (s.nextAction = .run .start) || decide (s.nextAction = .run (.regWrite 0#6 0x00000001#32))

/-- The next step is the command CLEAR, as a CMD32 word or as the RegWrite that carries it (R221). -/
def State.runsClear (s : State) : Bool :=
  decide (s.nextAction = .run .clear) || decide (s.nextAction = .run (.regWrite 0#6 0x00000002#32))

/-- `n` steps one after another. -/
def stepN : Nat → State → Host.Outcome State Fault Refusal
  | 0, s => .next s
  | n + 1, s =>
    match step s with
    | .next t => stepN n t
    | .fault r => .fault r
    | .refused r => .refused r

end Sys2Proof.Machine
end

