-- ==== Sys2Proof/Certificates/Slice0/Obligations.lean ====
section
/-! DEFINITION. The statements for the provers. -/

open Sys2Proof Sys2Proof.Machine

/-! ## Encoding and fetch -/

/-- Decoding the encoding of a well-formed instruction gives it back, whatever its operands. -/
def Obligations.DecodeOfEncodeIsInstruction : Prop :=
  ∀ i : Instr, i.wellFormed = true → decode (encode i) = .ok i

/-- A TXN128 record or CMD32 word that decodes is the one encoding of its instruction; a SEL9 word that decodes agrees
with the encoding in the phase code, and in RI too where the micro-operation is a round. -/
def Obligations.DecodedWordIsTheEncoding : Prop :=
  (∀ r i, decode (.txn r) = .ok i → i.wellFormed = true ∧ encode i = .txn r) ∧
  (∀ w i, decode (.cmd w) = .ok i → i.wellFormed = true ∧ encode i = .cmd w) ∧
  (∀ (w : BitVec 9) i, decode (.sel w) = .ok i → i.wellFormed = true ∧
    ∃ v : BitVec 9, encode i = .sel v ∧ v.extractLsb' 6 3 = w.extractLsb' 6 3 ∧
      (w.extractLsb' 6 3 = 2#3 → v = w))

/-- A row of the opcode table covers a record (its bits under the row's mask are the row's match) exactly when the
decoder reads that row's instruction from it; so a record that no row covers is refused, and no record has two rows. -/
def Obligations.DecoderAgreesWithOpcodeTable : Prop :=
  ∀ (r : Record) (row : OpcodeRow), row ∈ opcodeTable →
    (row.covers r = true ↔ ∃ i, decode r = .ok i ∧ i.mnemonic = row.mnemonic)

/-- Words the spec prints decode to what they stand for: records of 95_test_vectors section 10, the match word of every row
of spec/opcode_table.json, and the command value 5 of section 10 (P4), which is none. That a table word of up to 16 bits
is read as SEL9 and one of up to 32 as CMD32 is the model's choice (log 17). -/
def Obligations.WordsWrittenInTheSpecDecode : Prop :=
  decodeTableWord 128 0x00000000000000000000000100000000 = some (.regRead 1) ∧
  decodeTableWord 128 0x40000000000000000000000300000079 = some (.regWrite 3 121) ∧
  decodeTableWord 128 0x00000000000000000000001700000000 = some (.regRead 23) ∧
  decodeTableWord 128 0x40000000000000000000000000000002 = some (.regWrite 0 2) ∧
  decodeTableWord 128 0xc0000000000000020000000000000063 = some (.msgWrite 2 0x63) ∧
  decodeTableWord 128 0xc0000000000000370000000000000071 = some (.msgWrite 55 0x71) ∧
  decodeTableWord 32 0x00000005 = none ∧
  decodeTableWord 128 0x00000000000000000000000000000000 = some (.regRead 0) ∧
  decodeTableWord 128 0x40000000000000000000000000000000 = some (.regWrite 0 0) ∧
  decodeTableWord 128 0x80000000000000000000000000000000 = some (.msgRead 0) ∧
  decodeTableWord 128 0xc0000000000000000000000000000000 = some (.msgWrite 0 0) ∧
  decodeTableWord 32 0x00000001 = some .start ∧ decodeTableWord 32 0x00000002 = some .clear ∧
  decodeTableWord 16 0x040 = some .load ∧ decodeTableWord 16 0x080 = some (.roundF 0) ∧
  decodeTableWord 16 0x090 = some (.roundG 0) ∧ decodeTableWord 16 0x0a0 = some (.roundH 0) ∧
  decodeTableWord 16 0x0b0 = some (.roundI 0) ∧ decodeTableWord 16 0x0c0 = some .fold ∧
  decodeTableWord 16 0x100 = some .encode

/-- A step takes the first input entry. A TXN128 record or CMD32 word that decodes runs its instruction; in the
sequencer's turn the instruction that SEL9 decodes to runs; all on the state with that entry used up. -/
def Obligations.StepRunsTheDecodedInstruction : Prop :=
  ∀ (s : State) (rest : List Event) (i : Instr),
    (∀ r, s.inputs = .host r :: rest → decode (.txn r) = .ok i → step s = exec i { s with inputs := rest }) ∧
    (∀ w, s.inputs = .command w :: rest → decode (.cmd w) = .ok i → step s = exec i { s with inputs := rest }) ∧
    (s.inputs = .sequencer :: rest → decode (.sel s.sel9) = .ok i → step s = exec i { s with inputs := rest }) ∧
    (s.inputs = [] → decode (.sel s.sel9) = .ok i → step s = exec i s)

/-- A record with a must-be-zero bit set is no transaction: the step drops it and changes nothing else. The bits are
63:38 for every KIND; ADDR for a register transaction; IDX for a message transaction; DATA for a read; DATA[31:8] for
MsgWrite. -/
def Obligations.MustBeZeroBitsRefuseTheRecord : Prop :=
  ∀ (s : State) (r : BitVec 128) (rest : List Event), s.inputs = .host r :: rest →
    (r.extractLsb' 38 26 ≠ 0 ∨
      (r.getLsbD 127 = false ∧ r.extractLsb' 64 62 ≠ 0) ∨
      (r.getLsbD 127 = true ∧ r.extractLsb' 32 6 ≠ 0) ∨
      (r.getLsbD 126 = false ∧ r.extractLsb' 0 32 ≠ 0) ∨
      (r.getLsbD 127 = true ∧ r.getLsbD 126 = true ∧ r.extractLsb' 8 24 ≠ 0)) →
    step s = .next { s with inputs := rest }

/-- Every line of the host-program notation is a record that decodes to the transaction it means, each register name is
its index, and the symbols START and CLEAR are their command codes. -/
def Obligations.HostLinesDecodeToTheirTransactions : Prop :=
  (∀ reg v, decode (.txn (HostLine.WREG reg v).record) = .ok (.regWrite reg.index v)) ∧
  (∀ reg, decode (.txn (HostLine.RREG reg).record) = .ok (.regRead reg.index)) ∧
  (∀ a b, decode (.txn (HostLine.WMSG a b).record) = .ok (.msgWrite a.toNat b)) ∧
  (∀ a, decode (.txn (HostLine.RMSG a).record) = .ok (.msgRead a.toNat)) ∧
  RegName.CMD.index = 0 ∧ RegName.STATUS.index = 1 ∧ RegName.ERRCODE.index = 2 ∧ RegName.LEN_LO.index = 3 ∧
  RegName.LEN_HI.index = 4 ∧ (∀ w : BitVec 2, (RegName.DIGEST w).index.toNat = 8 + w.toNat) ∧
  (∀ w : BitVec 3, (RegName.HEX w).index.toNat = 16 + w.toNat) ∧ (∀ n : BitVec 6, (RegName.R n).index = n) ∧
  symSTART = 0x00000001 ∧ symCLEAR = 0x00000002

/-! ## Reset, invariants, and the whole machine -/

/-- What reset leaves: the values R281 states, after a reset step from any state and in State.reset. -/
def Obligations.ResetLeavesStatedValues : Prop :=
  (∀ (s : State) (rest : List Event), s.inputs = .reset :: rest →
    ∃ t, step s = .next t ∧ t.phase = .idle ∧ t.FCODE = 0 ∧ t.HOSTERR = false ∧ t.HOSTERR_CAUSE = 0 ∧
      t.LEN_LO = 0 ∧ t.LEN_HI = 0 ∧ t.STATUS = 0 ∧ t.ERRCODE = 0) ∧
  (State.reset.phase = .idle ∧ State.reset.FCODE = 0 ∧ State.reset.HOSTERR = false ∧
    State.reset.HOSTERR_CAUSE = 0 ∧ State.reset.LEN_LO = 0 ∧ State.reset.LEN_HI = 0 ∧
    State.reset.STATUS = 0 ∧ State.reset.ERRCODE = 0)

/-- A reset step leaves the parameters (R7, log 1; the block's number, log 14), the entries after its own (log 2) and the
last reply (log 10): the fields of the model that R281 does not speak of. -/
def Obligations.ResetKeepsParametersAndInputs : Prop :=
  ∀ (s : State) (rest : List Event), s.inputs = .reset :: rest →
    ∃ t, step s = .next t ∧ t.cfg = s.cfg ∧ t.inputs = rest ∧ t.reply = s.reply

/-- The parameters of a block are fixed: no step of the host, the sequencer or the environment changes them, and each step
uses up exactly its own input entry. -/
def Obligations.NoStepChangesTheParameters : Prop :=
  ∀ s t : State, step s = .next t → t.cfg = s.cfg ∧ t.maxMsgBytes = s.maxMsgBytes ∧ t.inputs = s.inputs.tail

/-- The invariant holds right after reset (and the computation it tracks is none). -/
def Obligations.ResetMeetsTheInvariant : Prop :=
  State.reset.Inv ∧ State.reset.TracksMd5

/-- Every step, of the host, of the sequencer or of the environment, keeps the invariant. -/
def Obligations.StepKeepsTheInvariant : Prop :=
  ∀ s t : State, s.Inv → step s = .next t → t.Inv

/-- Every step, under every interleaving, keeps the registers where `compress` over `frame(MSG[0 .. LENL))` has them at
the position (phase, BLK, RI). -/
def Obligations.StepKeepsRegistersOnMd5 : Prop :=
  ∀ s t : State, s.Inv → s.TracksMd5 → step s = .next t → t.TracksMd5

/-- The step that ends a computation delivers the message's digest and its hex string. -/
def Obligations.EncodeStepDeliversTheDigest : Prop :=
  ∀ s : State, s.Inv → s.TracksMd5 → s.phase = .encode → s.sequencerTurn = true →
    ∃ t, step s = .next t ∧ t.phase = .done ∧
      t.digestBytes = Md5.digest s.message ∧ t.hexChars = Md5.md5Hex s.message

/-- A START that is accepted, with the sequencer left alone, is BUSY for 66 * NB sequencer steps and DONE after exactly
66 * NB + 1, with the digest and the hex string of MSG[0 .. LEN) in DIGEST and HEX. -/
def Obligations.AcceptedStartIsDoneAfterExactSteps : Prop :=
  ∀ s : State, s.Inv → s.inputs = [] → s.busy = false → s.phase ≠ .fault → s.len ≤ s.maxMsgBytes →
    ∃ u t, exec .start s = .next u ∧
      stepN (66 * (paddedLength s.len / 64) + 1) u = .next t ∧ t.phase = .done ∧
      t.digestBytes = Md5.digest ((List.range s.len).map s.msgByte) ∧
      t.hexChars = Md5.md5Hex ((List.range s.len).map s.msgByte) ∧
      ∀ k, k ≤ 66 * (paddedLength s.len / 64) → ∃ v, stepN k u = .next v ∧ v.busy = true

/-- While BUSY a sequencer step takes the number of steps left down by one, a host step leaves it, and it is never zero
while BUSY: no host transaction can disable the sequencer. -/
def Obligations.SequencerAlwaysProgresses : Prop :=
  ∀ s t : State, s.Inv → s.busy = true → step s = .next t →
    s.stepsLeft ≠ 0 ∧
    (s.sequencerTurn = true → t.stepsLeft + 1 = s.stepsLeft) ∧
    (s.hostTurn = true → t.stepsLeft = s.stepsLeft ∧ t.phase = s.phase ∧ t.RI = s.RI ∧ t.BLK = s.BLK)

/-- The sequencer's next-state relation: phase, RI and BLK in each of the table's rows; in IDLE, DONE and FAULT its turn
changes nothing. -/
def Obligations.SequencerFollowsItsTable : Prop :=
  ∀ s : State, s.Inv → s.sequencerTurn = true → ∃ t, step s = .next t ∧
    (s.phase = .load → t.phase = .round ∧ t.RI = 0 ∧ t.BLK = s.BLK) ∧
    (s.phase = .round → s.RI.toNat < 63 → t.phase = .round ∧ t.RI.toNat = s.RI.toNat + 1 ∧ t.BLK = s.BLK) ∧
    (s.phase = .round → s.RI.toNat = 63 → t.phase = .fold ∧ t.RI = s.RI ∧ t.BLK = s.BLK) ∧
    (s.phase = .fold → (s.BLK.toNat + 1) * 64 < s.PLEN.toNat →
      t.phase = .load ∧ t.BLK.toNat = s.BLK.toNat + 1 ∧ t.RI = s.RI) ∧
    (s.phase = .fold → ¬ (s.BLK.toNat + 1) * 64 < s.PLEN.toNat →
      (s.BLK.toNat + 1) * 64 = s.PLEN.toNat ∧ t.phase = .encode ∧ t.BLK.toNat = s.BLK.toNat + 1 ∧ t.RI = s.RI) ∧
    (s.phase = .encode → t.phase = .done ∧ t.RI = s.RI ∧ t.BLK = s.BLK) ∧
    (s.busy = false → t = { s with inputs := s.inputs.tail })

/-- No step and no instruction stops the machine: each answers a next state, from every state. For a micro-operation that
SEL9 does not select, answering next is the model's choice (log 8); that a fault of the block is a next state is the
model's reading (log 12). -/
def Obligations.EveryStepAnswersNext : Prop :=
  (∀ s : State, ∃ t, step s = .next t) ∧ (∀ (i : Instr) (s : State), ∃ t, exec i s = .next t)

/-- While BUSY, no step but a reset changes MSG, LEN_LO or LEN_HI, or what any message byte reads as. -/
def Obligations.InputIsFrozenWhileBusy : Prop :=
  ∀ s t : State, s.busy = true → s.nextAction ≠ .reset → step s = .next t →
    t.MSG = s.MSG ∧ t.LEN_LO = s.LEN_LO ∧ t.LEN_HI = s.LEN_HI ∧ ∀ a, t.msgByte a = s.msgByte a

/-- While BUSY, a host step changes nothing but the host-error record and what a read returns. -/
def Obligations.HostCannotDisturbAComputation : Prop :=
  ∀ s t : State, s.busy = true → s.hostTurn = true → step s = .next t →
    { t with HOSTERR := s.HOSTERR, HOSTERR_CAUSE := s.HOSTERR_CAUSE, reply := s.reply, fresh := s.fresh,
             inputs := s.inputs } = s

/-- DONE and its DIGEST and HEX stay until a START, a CLEAR or a reset. -/
def Obligations.DoneHoldsTheResult : Prop :=
  ∀ s t : State, s.phase = .done → step s = .next t → s.runsStart = false → s.runsClear = false →
    s.nextAction ≠ .reset → t.phase = .done ∧ t.DIGEST = s.DIGEST ∧ t.HEX = s.HEX

/-- FAULT and its code stay until a CLEAR or a reset, each of which leads to IDLE with FCODE and the error record
cleared. -/
def Obligations.FaultHoldsUntilClearOrReset : Prop :=
  ∀ s t : State, s.phase = .fault → step s = .next t →
    (s.runsClear = false → s.nextAction ≠ .reset → t.phase = .fault ∧ t.FCODE = s.FCODE) ∧
    (s.runsClear = true ∨ s.nextAction = .reset →
      t.phase = .idle ∧ t.FCODE = 0 ∧ t.HOSTERR = false ∧ t.HOSTERR_CAUSE = 0)

/-- A step that changes FCODE either clears it or enters FAULT with LEN_RANGE; it is a START that enters it. -/
def Obligations.OnlyLenRangeIsEverRaised : Prop :=
  ∀ s t : State, step s = .next t →
    t.FCODE = s.FCODE ∨ t.FCODE = 0 ∨ (t.FCODE = 1 ∧ t.phase = .fault ∧ s.runsStart = true)

/-- HOSTERR and its cause are sticky: once set, only a reset or an accepted CLEAR changes them. -/
def Obligations.FirstHostErrorIsKept : Prop :=
  ∀ s t : State, s.HOSTERR = true → step s = .next t → s.nextAction ≠ .reset →
    ¬ (s.runsClear = true ∧ s.busy = false) → t.HOSTERR = true ∧ t.HOSTERR_CAUSE = s.HOSTERR_CAUSE

/-- Apart from CLEAR and reset, after which they are don't-care (log 5), A to D change only in an accepted START and in ROUND
and FOLD, OA to OD and M only in LOAD, RI only in LOAD and in a ROUND other than round 63, BLK only in an accepted START
and in FOLD, and LENL and PLEN only in an accepted START. -/
def Obligations.WorkingRegistersHaveTheirWriters : Prop :=
  ∀ s t : State, step s = .next t → s.runsClear = false → s.nextAction ≠ .reset →
    (t.abcd ≠ s.abcd → (s.runsStart = true ∧ t.phase = .load ∧ t.abcd = initialVector) ∨
      (s.sequencerTurn = true ∧ (s.phase = .round ∨ s.phase = .fold))) ∧
    (t.M ≠ s.M ∨ t.orig ≠ s.orig → s.sequencerTurn = true ∧ s.phase = .load) ∧
    (t.RI ≠ s.RI → s.sequencerTurn = true ∧ (s.phase = .load ∧ t.RI = 0 ∨
      s.phase = .round ∧ s.RI.toNat < 63 ∧ t.RI = s.RI + 1)) ∧
    (t.BLK ≠ s.BLK → (s.runsStart = true ∧ s.busy = false ∧ t.phase = .load ∧ t.BLK = 0) ∨
      (s.sequencerTurn = true ∧ s.phase = .fold ∧ t.BLK = s.BLK + 1)) ∧
    (t.LENL ≠ s.LENL ∨ t.PLEN ≠ s.PLEN → s.runsStart = true ∧ t.phase = .load ∧ s.busy = false)

/-- The frame of the sequencer's steps: they leave MSG, LEN, the error records, the parameters and what the last read
returned; and DIGEST and HEX change only in ENCODE. -/
def Obligations.SequencerLeavesHostState : Prop :=
  ∀ s t : State, s.sequencerTurn = true → step s = .next t →
    t.MSG = s.MSG ∧ t.LEN_LO = s.LEN_LO ∧ t.LEN_HI = s.LEN_HI ∧ t.HOSTERR = s.HOSTERR ∧
    t.HOSTERR_CAUSE = s.HOSTERR_CAUSE ∧ t.FCODE = s.FCODE ∧ t.cfg = s.cfg ∧ t.reply = s.reply ∧
    t.LENL = s.LENL ∧ t.PLEN = s.PLEN ∧ t.epoch = s.epoch ∧ t.fresh = s.fresh ∧
    (s.phase ≠ .encode → t.DIGEST = s.DIGEST ∧ t.HEX = s.HEX) ∧ ∀ a, t.msgByte a = s.msgByte a

/-- A step of one block leaves every other block as it was, is that block's own step, and leaves the blocks' numbers
different (log 14). -/
def Obligations.BlocksDoNotInteract : Prop :=
  ∀ (blocks : Blocks) (k : Nat) (s : State), blocks[k]? = some s →
    ∃ t after, step s = .next t ∧ stepBlock k blocks = .next after ∧ after.length = blocks.length ∧
      after[k]? = some t ∧ (∀ j, j ≠ k → after[j]? = blocks[j]?) ∧ (blocks.distinct → after.distinct)

/-! ## Host registers -/

/-- STATUS: its five fields and its reserved bits, at most one of BUSY, DONE and FAULT, a read of index 1 returns it, and a
write to it is refused. -/
def Obligations.StatusShowsPhaseAndHostError : Prop :=
  ∀ s : State,
    s.STATUS.getLsbD 0 = decide (s.phase = .load ∨ s.phase = .round ∨ s.phase = .fold ∨ s.phase = .encode) ∧
    s.STATUS.getLsbD 1 = decide (s.phase = .done) ∧ s.STATUS.getLsbD 2 = decide (s.phase = .fault) ∧
    s.STATUS.getLsbD 3 = s.HOSTERR ∧
    s.STATUS.extractLsb' 4 3 = (match s.phase with
      | .idle => 0#3 | .load => 1#3 | .round => 2#3 | .fold => 3#3 | .encode => 4#3 | .done => 5#3 | .fault => 6#3) ∧
    s.STATUS.extractLsb' 7 25 = 0 ∧
    ¬ (s.STATUS.getLsbD 0 = true ∧ s.STATUS.getLsbD 1 = true) ∧
    ¬ (s.STATUS.getLsbD 0 = true ∧ s.STATUS.getLsbD 2 = true) ∧
    ¬ (s.STATUS.getLsbD 1 = true ∧ s.STATUS.getLsbD 2 = true) ∧
    exec (.regRead 1) s = .next { s with reply := .word s.STATUS } ∧
    ∀ v, exec (.regWrite 1 v) s =
      .next { s with HOSTERR := true, HOSTERR_CAUSE := if s.HOSTERR = true then s.HOSTERR_CAUSE else 4 }

/-- ERRCODE: FAULT_CODE is FCODE in FAULT and 0 elsewhere, HOSTERR_CAUSE is the cause or 0, the rest is 0; and in every
state that meets the invariant it shows FCODE and the cause as they stand. -/
def Obligations.ErrcodeShowsFaultAndCause : Prop :=
  ∀ s : State,
    s.ERRCODE.extractLsb' 0 8 = (if s.phase = .fault then s.FCODE else 0) ∧
    s.ERRCODE.extractLsb' 8 8 = (if s.HOSTERR = true then s.HOSTERR_CAUSE else 0) ∧
    s.ERRCODE.extractLsb' 16 16 = 0 ∧
    (s.Inv → s.ERRCODE.extractLsb' 0 8 = s.FCODE ∧ s.ERRCODE.extractLsb' 8 8 = s.HOSTERR_CAUSE)

/-- RegRead returns the register of each index, in every phase, and changes nothing of the block; DIGEST and HEX here in
DONE, elsewhere in ReadsOfUnspecifiedOutputComplete. -/
def Obligations.RegReadReturnsTheRegister : Prop :=
  ∀ s : State,
    exec (.regRead 0) s = .next { s with reply := .word 0 } ∧
    exec (.regRead 1) s = .next { s with reply := .word s.STATUS } ∧
    exec (.regRead 2) s = .next { s with reply := .word s.ERRCODE } ∧
    exec (.regRead 3) s = .next { s with reply := .word s.LEN_LO } ∧
    exec (.regRead 4) s = .next { s with reply := .word s.LEN_HI } ∧
    (∀ w : Fin 4, s.phase = .done →
      exec (.regRead (BitVec.ofNat 6 (8 + w.val))) s = .next { s with reply := .word s.DIGEST[w] }) ∧
    (∀ w : Fin 8, s.phase = .done →
      exec (.regRead (BitVec.ofNat 6 (16 + w.val))) s = .next { s with reply := .word s.HEX[w] }) ∧
    (∀ n : BitVec 6, (5 ≤ n.toNat ∧ n.toNat ≤ 7) ∨ (12 ≤ n.toNat ∧ n.toNat ≤ 15) ∨ 24 ≤ n.toNat →
      exec (.regRead n) s = .next { s with reply := .word 0 })

/-- A read of DIGESTw or HEXw outside DONE completes, changes nothing of the block, and returns a free value that nothing
constrains (the model's form of "unspecified", log 6). -/
def Obligations.ReadsOfUnspecifiedOutputComplete : Prop :=
  ∀ (s : State) (n : BitVec 6), s.phase ≠ .done →
    (8 ≤ n.toNat ∧ n.toNat ≤ 11) ∨ (16 ≤ n.toNat ∧ n.toNat ≤ 23) →
    exec (.regRead n) s =
      .next { s with reply := .word (Config.unspecifiedWord s.cfg.unit s.fresh), fresh := s.fresh + 1 }

/-- What a host can read does not depend on the hidden registers: states that agree on what R45 lists as observable give
the same reply to every RegRead and MsgRead. -/
def Obligations.HiddenRegistersAreNotObservable : Prop :=
  ∀ s s' t t' : State, s.cfg = s'.cfg → s.phase = s'.phase → s.HOSTERR = s'.HOSTERR →
    s.HOSTERR_CAUSE = s'.HOSTERR_CAUSE → s.FCODE = s'.FCODE → s.LEN_LO = s'.LEN_LO → s.LEN_HI = s'.LEN_HI →
    s.MSG = s'.MSG → s.epoch = s'.epoch → s.fresh = s'.fresh →
    (s.phase = .done → s.DIGEST = s'.DIGEST ∧ s.HEX = s'.HEX) →
    (∀ n, exec (.regRead n) s = .next t → exec (.regRead n) s' = .next t' → t.reply = t'.reply) ∧
    (∀ a, exec (.msgRead a) s = .next t → exec (.msgRead a) s' = .next t' → t.reply = t'.reply)

/-- Reserved indices read as 0; a write to a reserved index or to a read-only register changes nothing but the host-error
record (RO_WRITE, cause 4, kept only if it is the first), in every phase. -/
def Obligations.ReservedAndReadOnlyIndices : Prop :=
  ∀ (s : State) (n : BitVec 6) (v : Word),
    ((5 ≤ n.toNat ∧ n.toNat ≤ 7) ∨ (12 ≤ n.toNat ∧ n.toNat ≤ 15) ∨ 24 ≤ n.toNat →
      exec (.regRead n) s = .next { s with reply := .word 0 }) ∧
    (n ≠ 0 → n ≠ 3 → n ≠ 4 → exec (.regWrite n v) s =
      .next { s with HOSTERR := true, HOSTERR_CAUSE := if s.HOSTERR = true then s.HOSTERR_CAUSE else 4 })

/-- While BUSY a write to CMD, LEN_LO, LEN_HI or MSG, START and CLEAR among them, changes nothing but the host-error
record (BUSY_WRITE, cause 1, kept only if it is the first). -/
def Obligations.BusyRefusesWrites : Prop :=
  ∀ s : State, s.phase = .load ∨ s.phase = .round ∨ s.phase = .fold ∨ s.phase = .encode →
    ∀ t : State,
      t = { s with HOSTERR := true, HOSTERR_CAUSE := if s.HOSTERR = true then s.HOSTERR_CAUSE else 1 } →
      (∀ v, exec (.regWrite 0 v) s = .next t) ∧ (∀ v, exec (.regWrite 3 v) s = .next t) ∧
      (∀ v, exec (.regWrite 4 v) s = .next t) ∧ (∀ a b, exec (.msgWrite a b) s = .next t) ∧
      exec .start s = .next t ∧ exec .clear s = .next t

/-- While not BUSY a write to LEN_LO or LEN_HI stores the value, and no other state changes. -/
def Obligations.LenWriteStoresTheValue : Prop :=
  ∀ (s : State) (v : Word), s.phase = .idle ∨ s.phase = .done ∨ s.phase = .fault →
    exec (.regWrite 3 v) s = .next { s with LEN_LO := v } ∧ exec (.regWrite 4 v) s = .next { s with LEN_HI := v }

/-- While not BUSY a write to CMD of a value other than 1 and 2 changes nothing but the host-error record (ILLEGAL_CMD,
cause 2, kept only if it is the first). The same of a CMD32 word of such a value, which the model runs as the RegWrite that
carries it (its reading of R93 and R100, log 16). -/
def Obligations.IllegalCommandIsRefused : Prop :=
  ∀ (s : State) (v : Word), s.phase = .idle ∨ s.phase = .done ∨ s.phase = .fault → v ≠ 1 → v ≠ 2 →
    exec (.regWrite 0 v) s =
      .next { s with HOSTERR := true, HOSTERR_CAUSE := if s.HOSTERR = true then s.HOSTERR_CAUSE else 2 } ∧
    ∀ rest, s.inputs = .command v :: rest → step s =
      .next { s with inputs := rest, HOSTERR := true,
                     HOSTERR_CAUSE := if s.HOSTERR = true then s.HOSTERR_CAUSE else 2 }

/-- A write of a command code to CMD performs that command: 1 is START, 2 is CLEAR, in every phase. -/
def Obligations.CommandWritePerformsTheCommand : Prop :=
  ∀ s : State, exec (.regWrite 0 1) s = exec .start s ∧ exec (.regWrite 0 2) s = exec .clear s

/-! ## Message memory -/

/-- MsgRead returns MSG[a] below MAX_MSG_BYTES and 0x00 from there on, in every phase, and changes nothing of the
block. -/
def Obligations.MsgReadReturnsTheByte : Prop :=
  ∀ (s : State) (a : Nat),
    (a < s.maxMsgBytes → exec (.msgRead a) s = .next { s with reply := .byte (s.msgByte a) }) ∧
    (s.maxMsgBytes ≤ a → exec (.msgRead a) s = .next { s with reply := .byte 0x00 })

/-- MsgWrite: while BUSY, BUSY_WRITE; then from MAX_MSG_BYTES on, MSG_RANGE; otherwise MSG[a] becomes b, every other byte
reads as before, nothing but MSG changes, and a MsgRead of `a` then returns b. -/
def Obligations.MsgWriteStoresTheByte : Prop :=
  ∀ (s : State) (a : Nat) (b : Byte),
    (s.busy = true → exec (.msgWrite a b) s =
      .next { s with HOSTERR := true, HOSTERR_CAUSE := if s.HOSTERR = true then s.HOSTERR_CAUSE else 1 }) ∧
    (s.busy = false → s.maxMsgBytes ≤ a → exec (.msgWrite a b) s =
      .next { s with HOSTERR := true, HOSTERR_CAUSE := if s.HOSTERR = true then s.HOSTERR_CAUSE else 5 }) ∧
    (s.busy = false → a < s.maxMsgBytes → ∃ t, exec (.msgWrite a b) s = .next t ∧ t.msgByte a = b ∧
      (∀ a', a' ≠ a → t.msgByte a' = s.msgByte a') ∧ { t with MSG := s.MSG } = s ∧
      exec (.msgRead a) t = .next { t with reply := .byte b })

/-! ## Commands -/

/-- START while not BUSY. In FAULT it is refused with CMD_IN_FAULT (cause 3, kept only if it is the first). In IDLE or DONE
with a length above MAX_MSG_BYTES it raises LEN_RANGE (FCODE 1, phase FAULT) and writes nothing else. With a length that
fits: FCODE 0, the length latched, the padded length computed, A to D the IV, BLK 0, phase LOAD, and nothing else changed.
So no START raises PAD_ALIGN. That DIGEST and HEX are among what does not change is the model's choice: the spec has them
unspecified from here to the next ENCODE, and the model says so in what a read of them returns (log 6). -/
def Obligations.StartBeginsAComputation : Prop :=
  ∀ (s : State) (len : Nat), len = s.LEN_HI.toNat * 2 ^ 32 + s.LEN_LO.toNat →
    (s.phase = .fault → exec .start s =
      .next { s with HOSTERR := true, HOSTERR_CAUSE := if s.HOSTERR = true then s.HOSTERR_CAUSE else 3 }) ∧
    (s.phase = .idle ∨ s.phase = .done → s.maxMsgBytes < len →
      exec .start s = .next { s with FCODE := 1, phase := .fault }) ∧
    (s.phase = .idle ∨ s.phase = .done → len ≤ s.maxMsgBytes → ∃ t, exec .start s = .next t ∧
      t.LENL.toNat = len ∧ t.PLEN.toNat = ((len + 8) / 64 + 1) * 64 ∧
      t.abcd = ⟨0x67452301, 0xefcdab89, 0x98badcfe, 0x10325476⟩ ∧ t.FCODE = 0 ∧ t.BLK = 0 ∧ t.phase = .load ∧
      { t with LENL := s.LENL, PLEN := s.PLEN, abcd := s.abcd, FCODE := s.FCODE, BLK := s.BLK, phase := s.phase } = s)

/-- CLEAR in IDLE, DONE or FAULT: IDLE, FCODE 0, the host-error record cleared; LEN, MSG (every byte of it) and the
parameters unchanged. -/
def Obligations.ClearReturnsToIdle : Prop :=
  ∀ s : State, s.phase = .idle ∨ s.phase = .done ∨ s.phase = .fault → ∃ t, exec .clear s = .next t ∧
    t.phase = .idle ∧ t.FCODE = 0 ∧ t.HOSTERR = false ∧ t.HOSTERR_CAUSE = 0 ∧
    t.LEN_LO = s.LEN_LO ∧ t.LEN_HI = s.LEN_HI ∧ t.MSG = s.MSG ∧ (∀ a, t.msgByte a = s.msgByte a) ∧
    t.cfg = s.cfg ∧ t.inputs = s.inputs ∧ t.reply = s.reply

/-! ## Framer -/

/-- The padded length: a multiple of 64, the least that is at least L + 9, at most L + 72, with one block more exactly
when L mod 64 is 56 to 63. -/
def Obligations.PaddedLengthIsTheLeastThatFits : Prop :=
  ∀ l : Nat, paddedLength l % 64 = 0 ∧ l + 9 ≤ paddedLength l ∧ paddedLength l ≤ l + 72 ∧
    (∀ p, p % 64 = 0 → l + 9 ≤ p → paddedLength l ≤ p) ∧
    (l % 64 ≤ 55 → paddedLength l = 64 * (l / 64 + 1)) ∧
    (56 ≤ l % 64 → paddedLength l = 64 * (l / 64 + 2))

/-- While BUSY the padded stream is the source's framed buffer, byte for byte and in length. -/
def Obligations.PaddedStreamIsTheFramedMessage : Prop :=
  ∀ s : State, s.Inv → s.busy = true → s.PLEN.toNat = (Md5.frame s.message).length ∧
    ∀ j, j < s.PLEN.toNat → (Md5.frame s.message)[j]? = some (s.padByte j)

/-- The padded stream byte by byte: message, marker 0x80, zeros, and the bit length little-endian in the last 8. -/
def Obligations.PaddedStreamLayout : Prop :=
  ∀ s : State, s.Inv → s.busy = true →
    (∀ j, j < s.LENL.toNat → s.padByte j = s.msgByte j) ∧
    s.padByte s.LENL.toNat = 0x80 ∧
    (∀ j, s.LENL.toNat < j → j < s.PLEN.toNat - 8 → s.padByte j = 0x00) ∧
    (∀ j, j < 8 → (s.padByte (s.PLEN.toNat - 8 + j)).toNat = s.LENL.toNat * 8 / 256 ^ j % 256)

/-- Bytes at or past the latched length do not reach LOAD: with the same bytes below it, LOAD leaves the same state but
for MSG itself. -/
def Obligations.LoadIgnoresBytesPastTheLength : Prop :=
  ∀ (s t : State) (m : Memory), s.phase = .load →
    (∀ a, a < s.LENL.toNat → State.msgByte { s with MSG := m } a = s.msgByte a) →
    exec .load s = .next t → exec .load { s with MSG := m } = .next { t with MSG := m }

/-! ## Compressor -/

/-- LOAD: M[w] is the little-endian word of four padded bytes of block BLK, OA to OD are A to D, RI is 0, the phase is
ROUND, and nothing else changes. -/
def Obligations.LoadReadsTheBlock : Prop :=
  ∀ s : State, s.phase = .load → ∃ t, exec .load s = .next t ∧
    (∀ w : Fin 16, (t.M[w]).toNat = (s.padByte (64 * s.BLK.toNat + 4 * w.val)).toNat +
      256 * (s.padByte (64 * s.BLK.toNat + 4 * w.val + 1)).toNat +
      65536 * (s.padByte (64 * s.BLK.toNat + 4 * w.val + 2)).toNat +
      16777216 * (s.padByte (64 * s.BLK.toNat + 4 * w.val + 3)).toNat) ∧
    t.orig = s.abcd ∧ t.RI = 0 ∧ t.phase = .round ∧
    { t with M := s.M, orig := s.orig, RI := s.RI, phase := s.phase } = s

/-- ROUND_F, rounds 0 to 15: F = (B & C) | (~B & D), k = i, S cycles 7, 12, 17, 22; RI counts on, nothing else
changes. -/
def Obligations.RoundFUpdatesTheState : Prop :=
  ∀ (s : State) (pos : BitVec 4), s.phase = .round → s.RI = 0b00#2 ++ pos →
    exec (.roundF pos) s = .next { s with
      abcd := ⟨s.abcd.D,
        s.abcd.B + rotl32 (s.abcd.A + ((s.abcd.B &&& s.abcd.C) ||| (~~~s.abcd.B &&& s.abcd.D)) +
          s.M[pos.toNat]?.getD 0 + tTable.getD pos.toNat 0) ([7, 12, 17, 22].getD (pos.toNat % 4) 0),
        s.abcd.B, s.abcd.C⟩
      RI := s.RI + 1 }

/-- ROUND_G, rounds 16 to 31: F = (B & D) | (C & ~D), k = (5i + 1) mod 16, S cycles 5, 9, 14, 20; RI counts on, nothing
else changes. -/
def Obligations.RoundGUpdatesTheState : Prop :=
  ∀ (s : State) (pos : BitVec 4), s.phase = .round → s.RI = 0b01#2 ++ pos →
    exec (.roundG pos) s = .next { s with
      abcd := ⟨s.abcd.D,
        s.abcd.B + rotl32 (s.abcd.A + ((s.abcd.B &&& s.abcd.D) ||| (s.abcd.C &&& ~~~s.abcd.D)) +
          s.M[(5 * (16 + pos.toNat) + 1) % 16]?.getD 0 + tTable.getD (16 + pos.toNat) 0)
          ([5, 9, 14, 20].getD (pos.toNat % 4) 0),
        s.abcd.B, s.abcd.C⟩
      RI := s.RI + 1 }

/-- ROUND_H, rounds 32 to 47: F = B ^ C ^ D, k = (3i + 5) mod 16, S cycles 4, 11, 16, 23; RI counts on, nothing else
changes. -/
def Obligations.RoundHUpdatesTheState : Prop :=
  ∀ (s : State) (pos : BitVec 4), s.phase = .round → s.RI = 0b10#2 ++ pos →
    exec (.roundH pos) s = .next { s with
      abcd := ⟨s.abcd.D,
        s.abcd.B + rotl32 (s.abcd.A + (s.abcd.B ^^^ s.abcd.C ^^^ s.abcd.D) +
          s.M[(3 * (32 + pos.toNat) + 5) % 16]?.getD 0 + tTable.getD (32 + pos.toNat) 0)
          ([4, 11, 16, 23].getD (pos.toNat % 4) 0),
        s.abcd.B, s.abcd.C⟩
      RI := s.RI + 1 }

/-- ROUND_I, rounds 48 to 63: F = C ^ (B | ~D), k = 7i mod 16, S cycles 6, 10, 15, 21; RI counts on, except that round 63
leaves RI and moves the phase to FOLD; nothing else changes. -/
def Obligations.RoundIUpdatesTheState : Prop :=
  ∀ (s : State) (pos : BitVec 4), s.phase = .round → s.RI = 0b11#2 ++ pos →
    exec (.roundI pos) s = .next { s with
      abcd := ⟨s.abcd.D,
        s.abcd.B + rotl32 (s.abcd.A + (s.abcd.C ^^^ (s.abcd.B ||| ~~~s.abcd.D)) +
          s.M[(7 * (48 + pos.toNat)) % 16]?.getD 0 + tTable.getD (48 + pos.toNat) 0)
          ([6, 10, 15, 21].getD (pos.toNat % 4) 0),
        s.abcd.B, s.abcd.C⟩
      RI := if pos = 15#4 then s.RI else s.RI + 1
      phase := if pos = 15#4 then .fold else .round }

/-- The four functions bit by bit: group 0 takes C where B is 1 and D where B is 0; group 1 takes B where D is 1 and C
where D is 0; group 2 is the parity; group 3 is C xor (B or not D). -/
def Obligations.RoundFunctionsBitByBit : Prop :=
  ∀ (b c d : Word) (n : Nat), n < 32 →
    (roundFunction .F b c d).getLsbD n = (if b.getLsbD n then c.getLsbD n else d.getLsbD n) ∧
    (roundFunction .G b c d).getLsbD n = (if d.getLsbD n then b.getLsbD n else c.getLsbD n) ∧
    (roundFunction .H b c d).getLsbD n =
      decide (((b.getLsbD n).toNat + (c.getLsbD n).toNat + (d.getLsbD n).toNat) % 2 = 1) ∧
    (roundFunction .I b c d).getLsbD n = (c.getLsbD n ^^ (b.getLsbD n || !d.getLsbD n))

/-- Every round's indices are in range, so no ROUND that is selected raises INDEX_RANGE. -/
def Obligations.RoundIndicesAreInRange : Prop :=
  (∀ i, i < 64 → wordIndex (Group.ofRound i) i < 16 ∧ i < tTable.length ∧
    shiftIndex (Group.ofRound i) i < 16 ∧ shiftIndex (Group.ofRound i) i < shiftTable.length) ∧
  ∀ (s : State) (g : Group) (pos : BitVec 4), s.selectsRound g pos = true →
    (roundStep g s).phase ≠ .fault ∧ (roundStep g s).FCODE = s.FCODE

/-- The message index over each group's 16 rounds, as the spec lists it; each word is used once in each group. -/
def Obligations.MessageScheduleIsAPermutation : Prop :=
  (List.range 16).map (fun n => wordIndex .F n) = [0, 1, 2, 3, 4, 5, 6, 7, 8, 9, 10, 11, 12, 13, 14, 15] ∧
  (List.range 16).map (fun n => wordIndex .G (16 + n)) = [1, 6, 11, 0, 5, 10, 15, 4, 9, 14, 3, 8, 13, 2, 7, 12] ∧
  (List.range 16).map (fun n => wordIndex .H (32 + n)) = [5, 8, 11, 14, 1, 4, 7, 10, 13, 0, 3, 6, 9, 12, 15, 2] ∧
  (List.range 16).map (fun n => wordIndex .I (48 + n)) = [0, 7, 14, 5, 12, 3, 10, 1, 8, 15, 6, 13, 4, 11, 2, 9] ∧
  ∀ k, k < 16 → ∀ g : Group, ∃ n, n < 16 ∧ wordIndex g (16 * g.code.toNat + n) = k ∧
    ∀ m, m < 16 → wordIndex g (16 * g.code.toNat + m) = k → m = n

/-- T holds floor(2^32 * |sin(i + 1)|) for each of the 64 rounds. -/
def Obligations.RoundConstantsAreSines : Prop :=
  tTable.length = 64 ∧
  ∀ i, i < 64 → (((tTable.getD i 0).toNat : ℤ)) = ⌊(2 : ℝ) ^ 32 * |Real.sin ((i : ℝ) + 1)|⌋

/-- Every shift amount is 4 to 23, and rotl32 by 1 to 31 is a true rotation: bit n of the result is bit n - s of the word,
counted around. -/
def Obligations.ShiftsAreTrueRotations : Prop :=
  (shiftTable.length = 16 ∧ ∀ n ∈ shiftTable, 4 ≤ n ∧ n ≤ 23) ∧
  ∀ (x : Word) (r n : Nat), 1 ≤ r → r ≤ 31 → n < 32 → (rotl32 x r).getLsbD n = x.getLsbD ((n + 32 - r) % 32)

/-- FOLD: four independent 32-bit additions, BLK counts on, the phase is ENCODE after the last block and LOAD before it,
and nothing else changes. -/
def Obligations.FoldAddsTheSavedState : Prop :=
  ∀ s : State, s.phase = .fold → exec .fold s = .next { s with
    abcd := ⟨s.abcd.A + s.orig.A, s.abcd.B + s.orig.B, s.abcd.C + s.orig.C, s.abcd.D + s.orig.D⟩
    BLK := s.BLK + 1
    phase := if (s.BLK.toNat + 1) * 64 = s.PLEN.toNat then .encode else .load }

/-- A micro-operation that SEL9 does not select is no step: nothing changes (the model's choice, log 8). -/
def Obligations.UnselectedMicroOperationsChangeNothing : Prop :=
  ∀ (s : State) (pos : BitVec 4),
    (s.phase ≠ .load → exec .load s = .next s) ∧
    (¬ (s.phase = .round ∧ s.RI = 0b00#2 ++ pos) → exec (.roundF pos) s = .next s) ∧
    (¬ (s.phase = .round ∧ s.RI = 0b01#2 ++ pos) → exec (.roundG pos) s = .next s) ∧
    (¬ (s.phase = .round ∧ s.RI = 0b10#2 ++ pos) → exec (.roundH pos) s = .next s) ∧
    (¬ (s.phase = .round ∧ s.RI = 0b11#2 ++ pos) → exec (.roundI pos) s = .next s) ∧
    (s.phase ≠ .fold → exec .fold s = .next s) ∧
    (s.phase ≠ .encode → exec .encode s = .next s)

/-! ## Encoder -/

/-- ENCODE: DIGEST0 to DIGEST3 are A to D word for word, HEX0 to HEX7 hold the hex string of the serialized state with
the first character lowest, the phase is DONE, and nothing else changes. -/
def Obligations.EncodeWritesDigestAndHex : Prop :=
  ∀ s : State, s.phase = .encode → ∃ t, exec .encode s = .next t ∧ t.phase = .done ∧
    t.DIGEST = #v[s.abcd.A, s.abcd.B, s.abcd.C, s.abcd.D] ∧
    t.digestBytes = serialize s.abcd ∧ t.hexChars = hexString (serialize s.abcd) ∧
    { t with DIGEST := s.DIGEST, HEX := s.HEX, phase := s.phase } = s

/-- Serialization puts byte 4w + j of the digest at bits 8j+7:8j of word w. Hex rendering gives two characters for each
byte and puts the digit of its high nibble before the digit of its low nibble (R201; R203 derives the order). The digit of
v is the character "0123456789abcdef"[v], by its ASCII code (R202's codes, which the spec marks as not in its source:
log 11). -/
def Obligations.SerializeAndHexAreBytewise : Prop :=
  (∀ (q : Quad) (j : Nat), j < 4 →
    (serialize q)[j]? = some (q.A.extractLsb' (8 * j) 8) ∧ (serialize q)[4 + j]? = some (q.B.extractLsb' (8 * j) 8) ∧
    (serialize q)[8 + j]? = some (q.C.extractLsb' (8 * j) 8) ∧
    (serialize q)[12 + j]? = some (q.D.extractLsb' (8 * j) 8)) ∧
  (∀ (bytes : List Byte) (j : Nat) (b : Byte), bytes[j]? = some b →
    (hexString bytes)[2 * j]? = some (hexDigit (BitVec.ofNat 4 (b.toNat / 16))) ∧
    (hexString bytes)[2 * j + 1]? = some (hexDigit (BitVec.ofNat 4 (b.toNat % 16)))) ∧
  (∀ bytes : List Byte, (hexString bytes).length = 2 * bytes.length) ∧
  (∀ v : BitVec 4, v.toNat ≤ 9 → (hexDigit v).toNat = 0x30 + v.toNat) ∧
  ∀ v : BitVec 4, 10 ≤ v.toNat → (hexDigit v).toNat = 0x61 + (v.toNat - 10)

/-- The hex string of a digest has 32 characters, each one of 0 to 9 and a to f (as ASCII), and serialization and hex
rendering lose nothing. -/
def Obligations.HexIsLowercaseAndInjective : Prop :=
  (∀ q : Quad, (serialize q).length = 16 ∧ (hexString (serialize q)).length = 32) ∧
  (∀ (bytes : List Byte), ∀ c ∈ hexString bytes,
    (0x30 ≤ c.toNat ∧ c.toNat ≤ 0x39) ∨ (0x61 ≤ c.toNat ∧ c.toNat ≤ 0x66)) ∧
  (∀ q q' : Quad, serialize q = serialize q' → q = q') ∧
  (∀ bytes bytes' : List Byte, hexString bytes = hexString bytes' → bytes = bytes')
end

