-- ==== Sys2Proof/Laws/Bytes.lean ====
section
/-! SUPPORT. Words and bytes as numbers (00_scope R10, R11), and the two directions between a word and its four bytes. -/

namespace Sys2Proof.Machine

open Sys2Proof

/-- Concatenation as a number. -/
theorem append_toNat {n m : Nat} (x : BitVec n) (y : BitVec m) : (x ++ y).toNat = x.toNat * 2 ^ m + y.toNat := by
  rw [BitVec.toNat_append, ← Nat.shiftLeft_add_eq_or_of_lt y.isLt, Nat.shiftLeft_eq]

/-- `le32` as a number (R11). -/
theorem le32_toNat (a b c d : Byte) :
    (le32 a b c d).toNat = a.toNat + 256 * b.toNat + 65536 * c.toNat + 16777216 * d.toNat := by
  have h : (le32 a b c d).toNat = (d ++ c ++ b ++ a).toNat := rfl
  rw [h, append_toNat, append_toNat, append_toNat]
  omega

/-- Byte `j` of a word as a number. -/
theorem wordByte_toNat (v : Word) (j : Nat) : (wordByte v j).toNat = v.toNat / 256 ^ j % 256 := by
  have : (2 : Nat) ^ (8 * j) = 256 ^ j := by rw [Nat.pow_mul]
  simp [wordByte, BitVec.extractLsb'_toNat, Nat.shiftRight_eq_div_pow, this]

/-- Byte `j` of a 64-bit value as a number. -/
theorem le64Byte_toNat (v : Dword) (j : Nat) : (le64Byte v j).toNat = v.toNat / 256 ^ j % 256 := by
  have : (2 : Nat) ^ (8 * j) = 256 ^ j := by rw [Nat.pow_mul]
  simp [le64Byte, BitVec.extractLsb'_toNat, Nat.shiftRight_eq_div_pow, this]

/-- The bytes of four bytes packed are those four. -/
theorem le32Bytes_le32 (a b c d : Byte) : le32Bytes (le32 a b c d) = [a, b, c, d] := by
  have ha := a.isLt
  have hb := b.isLt
  have hc := c.isLt
  have hd := d.isLt
  simp only [le32Bytes, List.cons.injEq, and_true, ← BitVec.toNat_inj, wordByte_toNat, le32_toNat]
  omega

/-- Four bytes of a word packed are that word. -/
theorem le32_wordBytes (w : Word) : le32 (wordByte w 0) (wordByte w 1) (wordByte w 2) (wordByte w 3) = w := by
  have := w.isLt
  simp only [← BitVec.toNat_inj, wordByte_toNat, le32_toNat]
  omega

/-- A word's bytes determine it. -/
theorem le32Bytes_injective {v w : Word} (h : le32Bytes v = le32Bytes w) : v = w := by
  simp only [le32Bytes, List.cons.injEq, and_true] at h
  rw [← le32_wordBytes v, ← le32_wordBytes w, h.1, h.2.1, h.2.2.1, h.2.2.2]

/-- A rendered byte is two characters (43_encoder R201). -/
theorem hexString_cons (b : Byte) (bytes : List Byte) :
    hexString (b :: bytes) = hexDigit (b.extractLsb' 4 4) :: hexDigit (b.extractLsb' 0 4) :: hexString bytes := by
  simp [hexString]

/-- Two characters for each byte (R201). -/
theorem hexString_length (bytes : List Byte) : (hexString bytes).length = 2 * bytes.length := by
  induction bytes with
  | nil => rfl
  | cons b bytes ih => rw [hexString_cons]; simp [ih]; omega

/-- A serialized state has 16 bytes (R200). -/
theorem serialize_length (q : Quad) : (serialize q).length = 16 := rfl

/-- Four registers packed from 16 bytes, read byte by byte, are those bytes (R204). -/
theorem packed_four (bytes : List Byte) (h : bytes.length = 16) :
    (Vector.ofFn fun w : Fin 4 => packedWord bytes w.val).toList.flatMap le32Bytes = bytes := by
  match bytes, h with
  | [_, _, _, _, _, _, _, _, _, _, _, _, _, _, _, _], _ =>
    simp [Vector.toList_ofFn, List.ofFn_succ, packedWord, le32Bytes_le32]

/-- Eight registers packed from 32 characters, read byte by byte, are those characters (R206). -/
theorem packed_eight (bytes : List Byte) (h : bytes.length = 32) :
    (Vector.ofFn fun w : Fin 8 => packedWord bytes w.val).toList.flatMap le32Bytes = bytes := by
  match bytes, h with
  | [_, _, _, _, _, _, _, _, _, _, _, _, _, _, _, _, _, _, _, _, _, _, _, _, _, _, _, _, _, _, _, _], _ =>
    simp [Vector.toList_ofFn, List.ofFn_succ, packedWord, le32Bytes_le32]

/-- A nibble's digit determines it (R202). -/
theorem hexDigit_injective : ∀ v w : BitVec 4, hexDigit v = hexDigit w → v = w := by decide

/-- The high nibble as a number. -/
theorem highNibble (b : Byte) : b.extractLsb' 4 4 = BitVec.ofNat 4 (b.toNat / 16) := by
  simp [← BitVec.toNat_inj, BitVec.extractLsb'_toNat, Nat.shiftRight_eq_div_pow]

/-- The low nibble as a number. -/
theorem lowNibble (b : Byte) : b.extractLsb' 0 4 = BitVec.ofNat 4 (b.toNat % 16) := by
  simp [← BitVec.toNat_inj, BitVec.extractLsb'_toNat]

/-- A byte's two nibbles determine it. -/
theorem nibbles_injective {b c : Byte} (h : b.extractLsb' 4 4 = c.extractLsb' 4 4)
    (l : b.extractLsb' 0 4 = c.extractLsb' 0 4) : b = c := by
  have hb := b.isLt
  have hc := c.isLt
  simp only [highNibble, lowNibble, ← BitVec.toNat_inj, BitVec.toNat_ofNat] at h l ⊢
  omega

end Sys2Proof.Machine
end

