-- ==== Sys2Proof/Laws/Decode.lean ====
section
/-! SUPPORT. The fields of the records the encoder builds, and what each format's decoder can answer. -/

namespace Sys2Proof

section Fields
variable (kind : BitVec 2) (addr : BitVec 62) (idx : BitVec 6) (data : Word)

@[simp] theorem txnRecord_kind : (txnRecord kind addr idx data).extractLsb' 126 2 = kind := by
  unfold txnRecord
  ext i h
  simp only [← BitVec.getLsbD_eq_getElem, BitVec.getLsbD_extractLsb', BitVec.getLsbD_append]
  split_ifs <;> first | omega | simp [h, show 126 + i - 32 - 6 - 26 - 62 = i by omega]

@[simp] theorem txnRecord_addr : (txnRecord kind addr idx data).extractLsb' 64 62 = addr := by
  unfold txnRecord
  ext i h
  simp only [← BitVec.getLsbD_eq_getElem, BitVec.getLsbD_extractLsb', BitVec.getLsbD_append]
  split_ifs <;> first | omega | simp [h, show 64 + i - 32 - 6 - 26 = i by omega]

@[simp] theorem txnRecord_zero : (txnRecord kind addr idx data).extractLsb' 38 26 = 0#26 := by
  unfold txnRecord
  ext i h
  simp only [← BitVec.getLsbD_eq_getElem, BitVec.getLsbD_extractLsb', BitVec.getLsbD_append]
  split_ifs <;> first | omega | simp [h]

@[simp] theorem txnRecord_idx : (txnRecord kind addr idx data).extractLsb' 32 6 = idx := by
  unfold txnRecord
  ext i h
  simp only [← BitVec.getLsbD_eq_getElem, BitVec.getLsbD_extractLsb', BitVec.getLsbD_append]
  split_ifs <;> first | omega | simp [h]

@[simp] theorem txnRecord_data : (txnRecord kind addr idx data).extractLsb' 0 32 = data := by
  unfold txnRecord
  ext i h
  simp only [← BitVec.getLsbD_eq_getElem, BitVec.getLsbD_extractLsb', BitVec.getLsbD_append]
  split_ifs <;> first | omega | simp [h]

end Fields

/-- A TXN128 record is the concatenation of its five fields. -/
theorem txnRecord_fields (r : BitVec 128) (h : r.extractLsb' 38 26 = 0#26) :
    txnRecord (r.extractLsb' 126 2) (r.extractLsb' 64 62) (r.extractLsb' 32 6) (r.extractLsb' 0 32) = r := by
  ext i hi
  have hz : ∀ k, k < 26 → r.getLsbD (38 + k) = false := by
    intro k hk
    have := congrArg (fun v => v.getLsbD k) h
    simpa [hk] using this
  unfold txnRecord
  simp only [← BitVec.getLsbD_eq_getElem, BitVec.getLsbD_append, BitVec.getLsbD_extractLsb']
  by_cases h0 : i < 32
  · simp [h0]
  · by_cases h1 : i - 32 < 6
    · simp [h0, h1, show 32 + (i - 32) = i by omega]
    · by_cases h2 : i - 32 - 6 < 26
      · have := hz (i - 38) (by omega)
        rw [show 38 + (i - 38) = i by omega] at this
        simp [h0, h1, h2, this]
      · by_cases h3 : i - 32 - 6 - 26 < 62
        · simp [h0, h1, h2, h3, show 64 + (i - 32 - 6 - 26) = i by omega]
        · simp [h0, h1, h2, h3, show (i - 32 - 6 - 26 - 62 < 2) by omega,
            show 126 + (i - 32 - 6 - 26 - 62) = i by omega]

/-- The phase code of a selection word. -/
@[simp] theorem selWord_phase (p : BitVec 3) (ri : BitVec 6) : (selWord p ri).extractLsb' 6 3 = p := by
  unfold selWord
  ext i h
  simp only [← BitVec.getLsbD_eq_getElem, BitVec.getLsbD_extractLsb', BitVec.getLsbD_append]
  split_ifs <;> first | omega | simp [h]

/-- RI's low four bits in a selection word. -/
@[simp] theorem selWord_pos (p : BitVec 3) (g : BitVec 2) (pos : BitVec 4) : (selWord p (g ++ pos)).extractLsb' 0 4 = pos := by
  unfold selWord
  ext i h
  simp only [← BitVec.getLsbD_eq_getElem, BitVec.getLsbD_extractLsb', BitVec.getLsbD_append]
  split_ifs <;> first | omega | simp [h]

/-- RI's group bits in a selection word. -/
@[simp] theorem selWord_group (p : BitVec 3) (g : BitVec 2) (pos : BitVec 4) : (selWord p (g ++ pos)).extractLsb' 4 2 = g := by
  unfold selWord
  ext i h
  simp only [← BitVec.getLsbD_eq_getElem, BitVec.getLsbD_extractLsb', BitVec.getLsbD_append]
  split_ifs <;> first | omega | simp [h]

/-- A selection word is the concatenation of the phase code, the group and the position. -/
theorem selWord_fields (w : BitVec 9) :
    selWord (w.extractLsb' 6 3) (w.extractLsb' 4 2 ++ w.extractLsb' 0 4) = w := by
  revert w; decide

/-- A two-bit vector is one of four. -/
theorem bitVec2_cases (v : BitVec 2) : v = 0#2 ∨ v = 1#2 ∨ v = 2#2 ∨ v = 3#2 := by
  revert v; decide

/-- Everything the TXN128 decoder can answer (R91). -/
theorem decodeTxn_ok_iff (r : BitVec 128) (i : Instr) : decode (.txn r) = .ok i ↔
    r.extractLsb' 38 26 = 0#26 ∧
    ((r.extractLsb' 126 2 = 0#2 ∧ r.extractLsb' 64 62 = 0#62 ∧ r.extractLsb' 0 32 = 0#32 ∧
        i = .regRead (r.extractLsb' 32 6)) ∨
      (r.extractLsb' 126 2 = 1#2 ∧ r.extractLsb' 64 62 = 0#62 ∧
        i = .regWrite (r.extractLsb' 32 6) (r.extractLsb' 0 32)) ∨
      (r.extractLsb' 126 2 = 2#2 ∧ r.extractLsb' 32 6 = 0#6 ∧ r.extractLsb' 0 32 = 0#32 ∧
        i = .msgRead (r.extractLsb' 64 62).toNat) ∨
      (r.extractLsb' 126 2 = 3#2 ∧ r.extractLsb' 32 6 = 0#6 ∧ (r.extractLsb' 0 32).extractLsb' 8 24 = 0#24 ∧
        i = .msgWrite (r.extractLsb' 64 62).toNat ((r.extractLsb' 0 32).extractLsb' 0 8))) := by
  simp only [decode, decodeTxn]
  by_cases hz : r.extractLsb' 38 26 = 0#26
  · rcases bitVec2_cases (r.extractLsb' 126 2) with h | h | h | h <;>
      simp only [h, hz, ne_eq, not_true_eq_false, ↓reduceIte, BitVec.reduceEq] <;> split_ifs with hc <;>
      simp_all [eq_comm]
  · simp [hz]

/-- Everything the SEL9 decoder can answer (R102). -/
theorem decodeSel_ok_iff (w : BitVec 9) (i : Instr) : decode (.sel w) = .ok i ↔
    (w.extractLsb' 6 3 = 1#3 ∧ i = .load) ∨
    (w.extractLsb' 6 3 = 2#3 ∧ w.extractLsb' 4 2 = 0#2 ∧ i = .roundF (w.extractLsb' 0 4)) ∨
    (w.extractLsb' 6 3 = 2#3 ∧ w.extractLsb' 4 2 = 1#2 ∧ i = .roundG (w.extractLsb' 0 4)) ∨
    (w.extractLsb' 6 3 = 2#3 ∧ w.extractLsb' 4 2 = 2#2 ∧ i = .roundH (w.extractLsb' 0 4)) ∨
    (w.extractLsb' 6 3 = 2#3 ∧ w.extractLsb' 4 2 = 3#2 ∧ i = .roundI (w.extractLsb' 0 4)) ∨
    (w.extractLsb' 6 3 = 3#3 ∧ i = .fold) ∨ (w.extractLsb' 6 3 = 4#3 ∧ i = .encode) := by
  simp only [decode, decodeSel]
  have hp : ∀ v : BitVec 3, v = 0#3 ∨ v = 1#3 ∨ v = 2#3 ∨ v = 3#3 ∨ v = 4#3 ∨ v = 5#3 ∨ v = 6#3 ∨ v = 7#3 := by
    decide
  rcases hp (w.extractLsb' 6 3) with h | h | h | h | h | h | h | h <;>
    rcases bitVec2_cases (w.extractLsb' 4 2) with g | g | g | g <;> simp [h, g, eq_comm]

/-- Everything the CMD32 decoder can answer (R100). -/
theorem decodeCmd_ok_iff (w : BitVec 32) (i : Instr) : decode (.cmd w) = .ok i ↔
    (w = 0x00000001#32 ∧ i = .start) ∨ (w = 0x00000002#32 ∧ i = .clear) := by
  simp only [decode, decodeCmd]
  split_ifs with h1 h2 <;> simp_all [eq_comm]

end Sys2Proof
end

