-- ==== Sys2Proof/Laws/State.lean ====
section
/-! SUPPORT. One lemma for each field under each shared update of the state, true by rfl, so that no proof unfolds an
update. Fields that take a free value have none. -/

namespace Sys2Proof.Machine

open Sys2Proof

variable (s : State)

/-! ## hostError -/

@[simp] theorem hostError_cfg (c : HostCause) : (hostError c s).cfg = s.cfg := rfl
@[simp] theorem hostError_abcd (c : HostCause) : (hostError c s).abcd = s.abcd := rfl
@[simp] theorem hostError_orig (c : HostCause) : (hostError c s).orig = s.orig := rfl
@[simp] theorem hostError_M (c : HostCause) : (hostError c s).M = s.M := rfl
@[simp] theorem hostError_RI (c : HostCause) : (hostError c s).RI = s.RI := rfl
@[simp] theorem hostError_BLK (c : HostCause) : (hostError c s).BLK = s.BLK := rfl
@[simp] theorem hostError_LENL (c : HostCause) : (hostError c s).LENL = s.LENL := rfl
@[simp] theorem hostError_PLEN (c : HostCause) : (hostError c s).PLEN = s.PLEN := rfl
@[simp] theorem hostError_phase (c : HostCause) : (hostError c s).phase = s.phase := rfl
@[simp] theorem hostError_HOSTERR (c : HostCause) : (hostError c s).HOSTERR = true := rfl
@[simp] theorem hostError_HOSTERR_CAUSE (c : HostCause) : (hostError c s).HOSTERR_CAUSE = if s.HOSTERR then s.HOSTERR_CAUSE else c.code := rfl
@[simp] theorem hostError_FCODE (c : HostCause) : (hostError c s).FCODE = s.FCODE := rfl
@[simp] theorem hostError_LEN_LO (c : HostCause) : (hostError c s).LEN_LO = s.LEN_LO := rfl
@[simp] theorem hostError_LEN_HI (c : HostCause) : (hostError c s).LEN_HI = s.LEN_HI := rfl
@[simp] theorem hostError_DIGEST (c : HostCause) : (hostError c s).DIGEST = s.DIGEST := rfl
@[simp] theorem hostError_HEX (c : HostCause) : (hostError c s).HEX = s.HEX := rfl
@[simp] theorem hostError_MSG (c : HostCause) : (hostError c s).MSG = s.MSG := rfl
@[simp] theorem hostError_inputs (c : HostCause) : (hostError c s).inputs = s.inputs := rfl
@[simp] theorem hostError_reply (c : HostCause) : (hostError c s).reply = s.reply := rfl
@[simp] theorem hostError_epoch (c : HostCause) : (hostError c s).epoch = s.epoch := rfl
@[simp] theorem hostError_fresh (c : HostCause) : (hostError c s).fresh = s.fresh := rfl

/-! ## raiseFault -/

@[simp] theorem raiseFault_cfg (c : FaultCode) : (raiseFault c s).cfg = s.cfg := rfl
@[simp] theorem raiseFault_abcd (c : FaultCode) : (raiseFault c s).abcd = s.abcd := rfl
@[simp] theorem raiseFault_orig (c : FaultCode) : (raiseFault c s).orig = s.orig := rfl
@[simp] theorem raiseFault_M (c : FaultCode) : (raiseFault c s).M = s.M := rfl
@[simp] theorem raiseFault_RI (c : FaultCode) : (raiseFault c s).RI = s.RI := rfl
@[simp] theorem raiseFault_BLK (c : FaultCode) : (raiseFault c s).BLK = s.BLK := rfl
@[simp] theorem raiseFault_LENL (c : FaultCode) : (raiseFault c s).LENL = s.LENL := rfl
@[simp] theorem raiseFault_PLEN (c : FaultCode) : (raiseFault c s).PLEN = s.PLEN := rfl
@[simp] theorem raiseFault_phase (c : FaultCode) : (raiseFault c s).phase = .fault := rfl
@[simp] theorem raiseFault_HOSTERR (c : FaultCode) : (raiseFault c s).HOSTERR = s.HOSTERR := rfl
@[simp] theorem raiseFault_HOSTERR_CAUSE (c : FaultCode) : (raiseFault c s).HOSTERR_CAUSE = s.HOSTERR_CAUSE := rfl
@[simp] theorem raiseFault_FCODE (c : FaultCode) : (raiseFault c s).FCODE = c.code := rfl
@[simp] theorem raiseFault_LEN_LO (c : FaultCode) : (raiseFault c s).LEN_LO = s.LEN_LO := rfl
@[simp] theorem raiseFault_LEN_HI (c : FaultCode) : (raiseFault c s).LEN_HI = s.LEN_HI := rfl
@[simp] theorem raiseFault_DIGEST (c : FaultCode) : (raiseFault c s).DIGEST = s.DIGEST := rfl
@[simp] theorem raiseFault_HEX (c : FaultCode) : (raiseFault c s).HEX = s.HEX := rfl
@[simp] theorem raiseFault_MSG (c : FaultCode) : (raiseFault c s).MSG = s.MSG := rfl
@[simp] theorem raiseFault_inputs (c : FaultCode) : (raiseFault c s).inputs = s.inputs := rfl
@[simp] theorem raiseFault_reply (c : FaultCode) : (raiseFault c s).reply = s.reply := rfl
@[simp] theorem raiseFault_epoch (c : FaultCode) : (raiseFault c s).epoch = s.epoch := rfl
@[simp] theorem raiseFault_fresh (c : FaultCode) : (raiseFault c s).fresh = s.fresh := rfl

/-! ## returnToIdle -/

@[simp] theorem returnToIdle_cfg : (returnToIdle s).cfg = s.cfg := rfl
@[simp] theorem returnToIdle_abcd : (returnToIdle s).abcd = s.abcd := rfl
@[simp] theorem returnToIdle_orig : (returnToIdle s).orig = s.orig := rfl
@[simp] theorem returnToIdle_M : (returnToIdle s).M = s.M := rfl
@[simp] theorem returnToIdle_RI : (returnToIdle s).RI = s.RI := rfl
@[simp] theorem returnToIdle_BLK : (returnToIdle s).BLK = s.BLK := rfl
@[simp] theorem returnToIdle_LENL : (returnToIdle s).LENL = s.LENL := rfl
@[simp] theorem returnToIdle_PLEN : (returnToIdle s).PLEN = s.PLEN := rfl
@[simp] theorem returnToIdle_phase : (returnToIdle s).phase = .idle := rfl
@[simp] theorem returnToIdle_HOSTERR : (returnToIdle s).HOSTERR = false := rfl
@[simp] theorem returnToIdle_HOSTERR_CAUSE : (returnToIdle s).HOSTERR_CAUSE = 0 := rfl
@[simp] theorem returnToIdle_FCODE : (returnToIdle s).FCODE = 0 := rfl
@[simp] theorem returnToIdle_LEN_LO : (returnToIdle s).LEN_LO = s.LEN_LO := rfl
@[simp] theorem returnToIdle_LEN_HI : (returnToIdle s).LEN_HI = s.LEN_HI := rfl
@[simp] theorem returnToIdle_DIGEST : (returnToIdle s).DIGEST = s.DIGEST := rfl
@[simp] theorem returnToIdle_HEX : (returnToIdle s).HEX = s.HEX := rfl
@[simp] theorem returnToIdle_MSG : (returnToIdle s).MSG = s.MSG := rfl
@[simp] theorem returnToIdle_inputs : (returnToIdle s).inputs = s.inputs := rfl
@[simp] theorem returnToIdle_reply : (returnToIdle s).reply = s.reply := rfl
@[simp] theorem returnToIdle_epoch : (returnToIdle s).epoch = s.epoch := rfl
@[simp] theorem returnToIdle_fresh : (returnToIdle s).fresh = s.fresh := rfl

/-! ## forgetWorking -/

@[simp] theorem forgetWorking_cfg : (forgetWorking s).cfg = s.cfg := rfl
@[simp] theorem forgetWorking_phase : (forgetWorking s).phase = s.phase := rfl
@[simp] theorem forgetWorking_HOSTERR : (forgetWorking s).HOSTERR = s.HOSTERR := rfl
@[simp] theorem forgetWorking_HOSTERR_CAUSE : (forgetWorking s).HOSTERR_CAUSE = s.HOSTERR_CAUSE := rfl
@[simp] theorem forgetWorking_FCODE : (forgetWorking s).FCODE = s.FCODE := rfl
@[simp] theorem forgetWorking_LEN_LO : (forgetWorking s).LEN_LO = s.LEN_LO := rfl
@[simp] theorem forgetWorking_LEN_HI : (forgetWorking s).LEN_HI = s.LEN_HI := rfl
@[simp] theorem forgetWorking_DIGEST : (forgetWorking s).DIGEST = s.DIGEST := rfl
@[simp] theorem forgetWorking_HEX : (forgetWorking s).HEX = s.HEX := rfl
@[simp] theorem forgetWorking_MSG : (forgetWorking s).MSG = s.MSG := rfl
@[simp] theorem forgetWorking_inputs : (forgetWorking s).inputs = s.inputs := rfl
@[simp] theorem forgetWorking_reply : (forgetWorking s).reply = s.reply := rfl
@[simp] theorem forgetWorking_epoch : (forgetWorking s).epoch = s.epoch := rfl
@[simp] theorem forgetWorking_fresh : (forgetWorking s).fresh = s.fresh + 1 := rfl

/-! ## answer -/

@[simp] theorem answer_cfg (r : Reply) : (answer r s).cfg = s.cfg := rfl
@[simp] theorem answer_abcd (r : Reply) : (answer r s).abcd = s.abcd := rfl
@[simp] theorem answer_orig (r : Reply) : (answer r s).orig = s.orig := rfl
@[simp] theorem answer_M (r : Reply) : (answer r s).M = s.M := rfl
@[simp] theorem answer_RI (r : Reply) : (answer r s).RI = s.RI := rfl
@[simp] theorem answer_BLK (r : Reply) : (answer r s).BLK = s.BLK := rfl
@[simp] theorem answer_LENL (r : Reply) : (answer r s).LENL = s.LENL := rfl
@[simp] theorem answer_PLEN (r : Reply) : (answer r s).PLEN = s.PLEN := rfl
@[simp] theorem answer_phase (r : Reply) : (answer r s).phase = s.phase := rfl
@[simp] theorem answer_HOSTERR (r : Reply) : (answer r s).HOSTERR = s.HOSTERR := rfl
@[simp] theorem answer_HOSTERR_CAUSE (r : Reply) : (answer r s).HOSTERR_CAUSE = s.HOSTERR_CAUSE := rfl
@[simp] theorem answer_FCODE (r : Reply) : (answer r s).FCODE = s.FCODE := rfl
@[simp] theorem answer_LEN_LO (r : Reply) : (answer r s).LEN_LO = s.LEN_LO := rfl
@[simp] theorem answer_LEN_HI (r : Reply) : (answer r s).LEN_HI = s.LEN_HI := rfl
@[simp] theorem answer_DIGEST (r : Reply) : (answer r s).DIGEST = s.DIGEST := rfl
@[simp] theorem answer_HEX (r : Reply) : (answer r s).HEX = s.HEX := rfl
@[simp] theorem answer_MSG (r : Reply) : (answer r s).MSG = s.MSG := rfl
@[simp] theorem answer_inputs (r : Reply) : (answer r s).inputs = s.inputs := rfl
@[simp] theorem answer_reply (r : Reply) : (answer r s).reply = r := rfl
@[simp] theorem answer_epoch (r : Reply) : (answer r s).epoch = s.epoch := rfl
@[simp] theorem answer_fresh (r : Reply) : (answer r s).fresh = s.fresh := rfl

/-! ## State.consume -/

@[simp] theorem State.consume_cfg : (s.consume).cfg = s.cfg := rfl
@[simp] theorem State.consume_abcd : (s.consume).abcd = s.abcd := rfl
@[simp] theorem State.consume_orig : (s.consume).orig = s.orig := rfl
@[simp] theorem State.consume_M : (s.consume).M = s.M := rfl
@[simp] theorem State.consume_RI : (s.consume).RI = s.RI := rfl
@[simp] theorem State.consume_BLK : (s.consume).BLK = s.BLK := rfl
@[simp] theorem State.consume_LENL : (s.consume).LENL = s.LENL := rfl
@[simp] theorem State.consume_PLEN : (s.consume).PLEN = s.PLEN := rfl
@[simp] theorem State.consume_phase : (s.consume).phase = s.phase := rfl
@[simp] theorem State.consume_HOSTERR : (s.consume).HOSTERR = s.HOSTERR := rfl
@[simp] theorem State.consume_HOSTERR_CAUSE : (s.consume).HOSTERR_CAUSE = s.HOSTERR_CAUSE := rfl
@[simp] theorem State.consume_FCODE : (s.consume).FCODE = s.FCODE := rfl
@[simp] theorem State.consume_LEN_LO : (s.consume).LEN_LO = s.LEN_LO := rfl
@[simp] theorem State.consume_LEN_HI : (s.consume).LEN_HI = s.LEN_HI := rfl
@[simp] theorem State.consume_DIGEST : (s.consume).DIGEST = s.DIGEST := rfl
@[simp] theorem State.consume_HEX : (s.consume).HEX = s.HEX := rfl
@[simp] theorem State.consume_MSG : (s.consume).MSG = s.MSG := rfl
@[simp] theorem State.consume_inputs : (s.consume).inputs = s.inputs.tail := rfl
@[simp] theorem State.consume_reply : (s.consume).reply = s.reply := rfl
@[simp] theorem State.consume_epoch : (s.consume).epoch = s.epoch := rfl
@[simp] theorem State.consume_fresh : (s.consume).fresh = s.fresh := rfl

/-! ## resetStep -/

@[simp] theorem resetStep_cfg : (resetStep s).cfg = s.cfg := rfl
@[simp] theorem resetStep_phase : (resetStep s).phase = .idle := rfl
@[simp] theorem resetStep_HOSTERR : (resetStep s).HOSTERR = false := rfl
@[simp] theorem resetStep_HOSTERR_CAUSE : (resetStep s).HOSTERR_CAUSE = 0 := rfl
@[simp] theorem resetStep_FCODE : (resetStep s).FCODE = 0 := rfl
@[simp] theorem resetStep_LEN_LO : (resetStep s).LEN_LO = 0 := rfl
@[simp] theorem resetStep_LEN_HI : (resetStep s).LEN_HI = 0 := rfl
@[simp] theorem resetStep_DIGEST : (resetStep s).DIGEST = s.DIGEST := rfl
@[simp] theorem resetStep_HEX : (resetStep s).HEX = s.HEX := rfl
@[simp] theorem resetStep_MSG : (resetStep s).MSG = [] := rfl
@[simp] theorem resetStep_inputs : (resetStep s).inputs = s.inputs := rfl
@[simp] theorem resetStep_reply : (resetStep s).reply = s.reply := rfl
@[simp] theorem resetStep_epoch : (resetStep s).epoch = s.epoch + 1 := rfl
@[simp] theorem resetStep_fresh : (resetStep s).fresh = s.fresh + 1 := rfl

/-! ## Functions of fields the updates leave -/

@[simp] theorem hostError_busy (c : HostCause) : (hostError c s).busy = s.busy := rfl
@[simp] theorem answer_busy (r : Reply) : (answer r s).busy = s.busy := rfl
@[simp] theorem consume_busy : s.consume.busy = s.busy := rfl
@[simp] theorem hostError_len (c : HostCause) : (hostError c s).len = s.len := rfl
@[simp] theorem answer_len (r : Reply) : (answer r s).len = s.len := rfl
@[simp] theorem consume_len : s.consume.len = s.len := rfl
@[simp] theorem hostError_maxMsgBytes (c : HostCause) : (hostError c s).maxMsgBytes = s.maxMsgBytes := rfl
@[simp] theorem answer_maxMsgBytes (r : Reply) : (answer r s).maxMsgBytes = s.maxMsgBytes := rfl
@[simp] theorem consume_maxMsgBytes : s.consume.maxMsgBytes = s.maxMsgBytes := rfl
@[simp] theorem hostError_msgByte (c : HostCause) (a : Nat) : (hostError c s).msgByte a = s.msgByte a := rfl
@[simp] theorem answer_msgByte (r : Reply) (a : Nat) : (answer r s).msgByte a = s.msgByte a := rfl
@[simp] theorem consume_msgByte (a : Nat) : s.consume.msgByte a = s.msgByte a := rfl
@[simp] theorem consume_sel9 : s.consume.sel9 = s.sel9 := rfl

/-! ## The host-error record: the first cause is kept (60_exceptions R262) -/

theorem hostError_cause_kept (c : HostCause) (h : s.HOSTERR = true) :
    (hostError c s).HOSTERR_CAUSE = s.HOSTERR_CAUSE := by simp [hostError, h]

theorem hostError_cause_first (c : HostCause) (h : s.HOSTERR = false) :
    (hostError c s).HOSTERR_CAUSE = c.code := by simp [hostError, h]

/-- Every cause has a code from 1 to 5 (R261). -/
theorem HostCause.code_range (c : HostCause) : 1 ≤ c.code.toNat ∧ c.code.toNat ≤ 5 := by cases c <;> decide

/-! ## BUSY -/

/-- BUSY spelled out (R28). -/
theorem busy_iff : s.busy = true ↔ s.phase = .load ∨ s.phase = .round ∨ s.phase = .fold ∨ s.phase = .encode := by
  unfold State.busy
  cases s.phase <;> simp [Phase.busy]

/-- Not BUSY spelled out (R28). -/
theorem not_busy_iff : s.busy = false ↔ s.phase = .idle ∨ s.phase = .done ∨ s.phase = .fault := by
  unfold State.busy
  cases s.phase <;> simp [Phase.busy]

end Sys2Proof.Machine
end

