-- ==== Sys2Proof/Laws/Memory.lean ====
section
/-! SUPPORT. Message memory: a read after a write, and the canonical form every write keeps (20_memory R61 to R63). -/

namespace Sys2Proof.Machine

open Sys2Proof

/-- The byte written is the byte read. -/
theorem Memory.written_write_same (m : Memory) (a : Nat) (b : Byte) :
    Memory.written (Memory.write m a b) a = some b := by
  induction m with
  | nil => simp [Memory.write, Memory.written]
  | cons c m ih =>
    obtain ⟨k, v⟩ := c
    simp only [Memory.write]
    split
    · simp [Memory.written]
    · split
      · simp [Memory.written]
      · next h => simp [Memory.written, ih, Ne.symm h]

/-- Every other byte is as it was. -/
theorem Memory.written_write_other (m : Memory) (a a' : Nat) (b : Byte) (h : a' ≠ a) :
    Memory.written (Memory.write m a b) a' = Memory.written m a' := by
  induction m with
  | nil => simp [Memory.write, Memory.written, Ne.symm h]
  | cons c m ih =>
    obtain ⟨k, v⟩ := c
    simp only [Memory.write]
    split
    · simp [Memory.written, Ne.symm h]
    · split
      · next h2 => subst h2; simp [Memory.written, Ne.symm h]
      · simp [Memory.written, ih]

/-- A write lists no address but those listed before and the one written. -/
theorem Memory.mem_write {m : Memory} {a : Nat} {b : Byte} {c : Host.Cell} (h : c ∈ Memory.write m a b) :
    c.1 = a ∨ c ∈ m := by
  induction m with
  | nil => simp [Memory.write] at h; simp [h]
  | cons d m ih =>
    simp only [Memory.write] at h
    split at h
    · simp only [List.mem_cons] at h ⊢
      rcases h with rfl | h
      · simp
      · exact .inr h
    · split at h
      · simp only [List.mem_cons] at h ⊢
        rcases h with rfl | h
        · simp
        · exact .inr (.inr h)
      · simp only [List.mem_cons] at h ⊢
        rcases h with rfl | h
        · simp
        · rcases ih h with h | h
          · exact .inl h
          · exact .inr (.inr h)

/-- A write keeps the canonical form. -/
theorem Memory.write_wf {m : Memory} (h : Memory.wf m) (a : Nat) (b : Byte) : Memory.wf (Memory.write m a b) := by
  induction m with
  | nil => simp [Memory.write]
  | cons d m ih =>
    obtain ⟨k, v⟩ := d
    have hk := List.pairwise_cons.mp h
    simp only [Memory.write]
    split
    · next hlt =>
      refine List.pairwise_cons.mpr ⟨?_, h⟩
      intro c hc
      rcases List.mem_cons.mp hc with rfl | hc
      · exact hlt
      · exact lt_trans hlt (hk.1 c hc)
    · next hge =>
      split
      · next heq => subst heq; exact List.pairwise_cons.mpr ⟨hk.1, hk.2⟩
      · next hne =>
        refine List.pairwise_cons.mpr ⟨?_, ih hk.2⟩
        intro c hc
        rcases Memory.mem_write hc with hc | hc
        · simp only; omega
        · exact hk.1 c hc

/-- The reset memory has the canonical form. -/
theorem Memory.reset_wf : Memory.wf State.reset.MSG := by decide

/-- MSG[a] after a write of `a` (R62). -/
theorem msgByte_write_same (s : State) (a : Nat) (b : Byte) :
    State.msgByte { s with MSG := Memory.write s.MSG a b } a = b := by
  simp [State.msgByte, Memory.written_write_same]

/-- MSG[a'] after a write of another byte (R62). -/
theorem msgByte_write_other (s : State) (a a' : Nat) (b : Byte) (h : a' ≠ a) :
    State.msgByte { s with MSG := Memory.write s.MSG a b } a' = s.msgByte a' := by
  simp [State.msgByte, Memory.written_write_other _ _ _ _ h]

end Sys2Proof.Machine
end

