-- ==== Sys2Proof/Laws/Steps.lean ====
section
/-! SUPPORT. Once for all: what each shared operation, each host step and each sequencer step can do. Proofs about steps
cite these and unfold no meaning. -/

namespace Sys2Proof.Machine

open Sys2Proof

/-! ## Lengths -/

/-- A padded length is a multiple of 64 (41_framer R142). -/
theorem paddedLength_mod (l : Nat) : paddedLength l % 64 = 0 := by
  unfold paddedLength; omega

/-- A padded length has room for the marker and the length field (R142). -/
theorem paddedLength_ge (l : Nat) : l + 9 ≤ paddedLength l := by
  unfold paddedLength; omega

/-- A padded length is at most 72 more (R142). -/
theorem paddedLength_le (l : Nat) : paddedLength l ≤ l + 72 := by
  unfold paddedLength; omega

/-- A capacity is at most 2^61 - 1 (00_scope R7). -/
theorem maxMsgBytes_lt (s : State) : s.maxMsgBytes < 2 ^ 61 := s.cfg.maxMsgBytes.isLt

/-! ## Commands -/

/-- The state an accepted START leaves (44_host_commands R224). -/
def started (s : State) : State :=
  { s with
    FCODE := 0
    LENL := BitVec.ofNat 64 s.len
    PLEN := BitVec.ofNat 64 (paddedLength s.len)
    abcd := initialVector
    BLK := 0
    phase := .load }

/-- Everything START can do once it is past the BUSY check (R224). -/
theorem startCommand_cases (s : State) :
    (s.phase = .fault ∧ startCommand s = hostError .cmdInFault s) ∨
    (s.phase ≠ .fault ∧ s.maxMsgBytes < s.len ∧ startCommand s = raiseFault .lenRange s) ∨
    (s.phase ≠ .fault ∧ s.len ≤ s.maxMsgBytes ∧ startCommand s = started s) := by
  unfold startCommand
  by_cases hf : s.phase = .fault
  · simp [hf]
  · by_cases hl : s.maxMsgBytes < s.len
    · simp [hf, hl]
    · simp [hf, hl, paddedLength_mod, started, Nat.le_of_not_lt hl]

/-- An accepted START latches the length exactly. -/
theorem started_lenl (s : State) (h : s.len ≤ s.maxMsgBytes) : (started s).LENL.toNat = s.len := by
  have := maxMsgBytes_lt s
  simp only [started, BitVec.toNat_ofNat]
  omega

/-- An accepted START computes the padded length exactly. -/
theorem started_plen (s : State) (h : s.len ≤ s.maxMsgBytes) : (started s).PLEN.toNat = paddedLength s.len := by
  have h1 := maxMsgBytes_lt s
  have h2 := paddedLength_le s.len
  simp only [started, BitVec.toNat_ofNat]
  omega

/-! ## Rounds -/

/-- RI's value when SEL9 selects position `pos` of group `g`. -/
theorem selected_index {s : State} {g : Group} {pos : BitVec 4} (h : s.RI = g.code ++ pos) :
    s.RI.toNat = 16 * g.code.toNat + pos.toNat := by
  have : ∀ (c : BitVec 2) (p : BitVec 4), (c ++ p).toNat = 16 * c.toNat + p.toNat := by decide
  rw [h, this]

/-- The group of a selected round is RI[5:4]. -/
theorem selected_group {s : State} {g : Group} {pos : BitVec 4} (h : s.RI = g.code ++ pos) :
    Group.ofRound s.RI.toNat = g := by
  have key : ∀ p : BitVec 4, Group.ofRound (16 * g.code.toNat + p.toNat) = g := by
    cases g <;> decide
  rw [selected_index h, key]

/-- In its own group a round's message index is in range (42_compressor R171). -/
theorem wordIndex_lt (i : Nat) (h : i < 64) : wordIndex (Group.ofRound i) i < 16 := by
  unfold Group.ofRound
  split_ifs <;> simp only [wordIndex] <;> omega

/-- A round's shift index is in range (30_encoding R95). -/
theorem shiftIndex_lt (g : Group) (i : Nat) : shiftIndex g i < 16 := by
  have := g.code.isLt
  unfold shiftIndex; omega

/-- The state a round leaves (R170). -/
def rounded (g : Group) (s : State) : State :=
  { s with
    abcd := roundUpdate g (s.M[wordIndex g s.RI.toNat]?.getD 0) (tTable.getD s.RI.toNat 0)
      (shiftTable.getD (shiftIndex g s.RI.toNat) 0) s.abcd
    RI := if s.RI.toNat = 63 then s.RI else s.RI + 1
    phase := if s.RI.toNat = 63 then .fold else s.phase }

/-- A round of RI's own group finds its operands, so it never raises INDEX_RANGE (R171). -/
theorem roundStep_eq (s : State) : roundStep (Group.ofRound s.RI.toNat) s = rounded (Group.ofRound s.RI.toNat) s := by
  have hi : s.RI.toNat < 64 := s.RI.isLt
  have hk := wordIndex_lt _ hi
  have hs := shiftIndex_lt (Group.ofRound s.RI.toNat) s.RI.toNat
  have ht : s.RI.toNat < tTable.length := hi
  have hs' : shiftIndex (Group.ofRound s.RI.toNat) s.RI.toNat < shiftTable.length := hs
  unfold roundStep rounded
  simp only [Vector.getElem?_eq_getElem hk, List.getElem?_eq_getElem ht, List.getElem?_eq_getElem hs',
    Option.getD_some, List.getD_eq_getElem?_getD]

/-- The round SEL9 selects, run. -/
theorem roundStep_selected {s : State} {g : Group} {pos : BitVec 4} (hp : s.phase = .round)
    (h : s.RI = g.code ++ pos) : (if s.selectsRound g pos then roundStep g s else s) = rounded g s := by
  have hsel : s.selectsRound g pos = true := by simp [State.selectsRound, hp, h]
  rw [if_pos hsel, ← selected_group h]
  exact roundStep_eq s

/-! ## The sequencer's turn -/

/-- What the sequencer does in its turn, by phase (R180). -/
def sequencerEffect (s : State) : State :=
  match s.phase with
  | .load => loadBlock s
  | .round => rounded (Group.ofRound s.RI.toNat) s
  | .fold => foldBlock s
  | .encode => encodeDigest s
  | .idle => s
  | .done => s
  | .fault => s

/-- RI is its group's code followed by the position. -/
theorem ri_split (ri : BitVec 6) :
    ri = (Group.ofRound ri.toNat).code ++ ri.extractLsb' 0 4 := by
  revert ri; decide

/-- The instruction SEL9 selects, run, is the sequencer's effect; where it selects none the effect is none. -/
theorem sequencerAction_effect (s : State) :
    (match sequencerAction s with
      | .run i => exec i s.consume
      | .reset => .next (resetStep s.consume)
      | .idle => .next s.consume) = Host.Outcome.next (sequencerEffect s.consume) := by
  have ph : ∀ p : Phase, (p.code ++ s.RI).extractLsb' 6 3 = p.code := fun p => selWord_phase p.code s.RI
  have hri := ri_split s.RI
  have hpos : (s.sel9).extractLsb' 0 4 = s.RI.extractLsb' 0 4 := by
    unfold State.sel9
    conv_lhs => rw [hri]
    exact selWord_pos s.phase.code _ _
  have hgrp : (s.sel9).extractLsb' 4 2 = (Group.ofRound s.RI.toNat).code := by
    unfold State.sel9
    conv_lhs => rw [hri]
    exact selWord_group s.phase.code _ _
  have hph : (s.sel9).extractLsb' 6 3 = s.phase.code := ph s.phase
  have hrs : ∀ g, Group.ofRound s.RI.toNat = g →
      roundStep g s.consume = rounded g s.consume := by
    rintro g rfl
    exact roundStep_eq s.consume
  unfold sequencerAction
  cases hp : s.phase with
  | idle => simp [decode, decodeSel, hph, hp, Phase.code, sequencerEffect]
  | load => simp [decode, decodeSel, hph, hp, Phase.code, sequencerEffect, exec, execLoad]
  | fold => simp [decode, decodeSel, hph, hp, Phase.code, sequencerEffect, exec, execFold]
  | encode => simp [decode, decodeSel, hph, hp, Phase.code, sequencerEffect, exec, execEncode]
  | done => simp [decode, decodeSel, hph, hp, Phase.code, sequencerEffect]
  | fault => simp [decode, decodeSel, hph, hp, Phase.code, sequencerEffect]
  | round =>
    cases hg : Group.ofRound s.RI.toNat <;> rw [hg] at hri hgrp <;>
      simp [decode, decodeSel, hph, hgrp, hpos, hp, Phase.code, Group.code, sequencerEffect, exec, execRoundF,
        execRoundG, execRoundH, execRoundI, State.selectsRound, hg, hrs _ hg] <;>
      exact fun hc => absurd hri (of_decide_eq_false hc)

/-- A step in the sequencer's turn. -/
theorem step_sequencer (s : State) (h : s.sequencerTurn = true) :
    step s = .next (sequencerEffect s.consume) := by
  have hn : s.nextAction = sequencerAction s := by
    unfold State.sequencerTurn at h
    unfold State.nextAction
    split at h <;> simp_all
  unfold step
  rw [hn]
  exact sequencerAction_effect s

/-! ## The host's turn -/

/-- Everything a host step can do to `s`, with the conditions under which it does it (R220 to R230). -/
inductive HostStep (s : State) : State → Prop where
  /-- a record that is no transaction -/
  | nothing : HostStep s s.consume
  /-- a read, which may use up a free value -/
  | read (r : Reply) (k : Nat) : HostStep s { s.consume with reply := r, fresh := k }
  /-- a refused write -/
  | refused (c : HostCause) : HostStep s (hostError c s.consume)
  /-- a LEN_LO write -/
  | lenLo (v : Word) (h : s.busy = false) : HostStep s { s.consume with LEN_LO := v }
  /-- a LEN_HI write -/
  | lenHi (v : Word) (h : s.busy = false) : HostStep s { s.consume with LEN_HI := v }
  /-- a MSG write -/
  | msg (a : Nat) (b : Byte) (h : s.busy = false) (ha : a < s.maxMsgBytes) :
      HostStep s { s.consume with MSG := Memory.write s.MSG a b }
  /-- START, in FAULT -/
  | startRefused (hr : s.runsStart = true) (h : s.phase = .fault) : HostStep s (hostError .cmdInFault s.consume)
  /-- START, too long -/
  | startFault (hr : s.runsStart = true) (h : s.busy = false) (hp : s.phase ≠ .fault)
      (hl : s.maxMsgBytes < s.len) : HostStep s (raiseFault .lenRange s.consume)
  /-- START, accepted -/
  | startAccepted (hr : s.runsStart = true) (h : s.busy = false) (hp : s.phase ≠ .fault)
      (hl : s.len ≤ s.maxMsgBytes) : HostStep s (started s.consume)
  /-- CLEAR, accepted -/
  | clear (hr : s.runsClear = true) (h : s.busy = false) : HostStep s (forgetWorking (returnToIdle s.consume))

theorem hostStep_start {s : State} (hr : s.runsStart = true) (h : s.busy = false) :
    HostStep s (startCommand s.consume) := by
  rcases startCommand_cases s.consume with ⟨hp, he⟩ | ⟨hp, hl, he⟩ | ⟨hp, hl, he⟩ <;> rw [he]
  · exact .startRefused hr hp
  · exact .startFault hr h hp hl
  · exact .startAccepted hr h hp hl

theorem hostStep_regRead (s : State) (n : BitVec 6) :
    ∃ t, exec (.regRead n) s.consume = .next t ∧ HostStep s t := by
  refine ⟨_, rfl, ?_⟩
  cases s.consume.hostRegister n with
  | some v => exact .read (.word v) s.fresh
  | none => exact .read (.word (Config.unspecifiedWord s.cfg.unit s.fresh)) (s.fresh + 1)

theorem hostStep_msgRead (s : State) (a : Nat) : ∃ t, exec (.msgRead a) s.consume = .next t ∧ HostStep s t :=
  ⟨_, rfl, .read _ s.fresh⟩

theorem hostStep_msgWrite (s : State) (a : Nat) (b : Byte) :
    ∃ t, exec (.msgWrite a b) s.consume = .next t ∧ HostStep s t := by
  refine ⟨_, rfl, ?_⟩
  simp only [consume_busy, consume_maxMsgBytes]
  rcases Bool.eq_false_or_eq_true s.busy with hb | hb
  · simpa [hb] using HostStep.refused .busyWrite
  · by_cases ha : s.maxMsgBytes ≤ a
    · simpa [hb, ha] using HostStep.refused .msgRange
    · simpa [hb, ha] using HostStep.msg a b hb (by omega)

theorem hostStep_regWrite (s : State) (n : BitVec 6) (v : Word)
    (hn : s.nextAction = .run (.regWrite n v)) :
    ∃ t, exec (.regWrite n v) s.consume = .next t ∧ HostStep s t := by
  refine ⟨_, rfl, ?_⟩
  simp only [consume_busy]
  by_cases hro : n ≠ 0#6 ∧ n ≠ 3#6 ∧ n ≠ 4#6
  · simpa [hro] using HostStep.refused .roWrite
  rw [if_neg hro]
  rcases Bool.eq_false_or_eq_true s.busy with hb | hb
  · simpa [hb] using HostStep.refused .busyWrite
  · simp only [hb, Bool.false_eq_true, ↓reduceIte]
    by_cases h3 : n = 3#6
    · simpa [h3] using HostStep.lenLo v hb
    by_cases h4 : n = 4#6
    · simpa [h4] using HostStep.lenHi v hb
    have h0 : n = 0#6 := by
      by_contra h0
      exact hro ⟨h0, h3, h4⟩
    subst h0
    simp only [writeCommand]
    by_cases h1 : v = 0x00000001#32
    · subst h1
      simpa using hostStep_start (by simp [State.runsStart, hn]) hb
    by_cases h2 : v = 0x00000002#32
    · subst h2
      simpa [clearCommand] using HostStep.clear (s := s) (by simp [State.runsClear, hn]) hb
    simpa [h1, h2] using HostStep.refused .illegalCmd

theorem hostStep_startInstr (s : State) (hn : s.nextAction = .run .start) :
    ∃ t, exec .start s.consume = .next t ∧ HostStep s t := by
  refine ⟨_, rfl, ?_⟩
  cases hb : s.busy
  · simpa [hb] using hostStep_start (by simp [State.runsStart, hn]) hb
  · simpa [hb] using HostStep.refused .busyWrite

theorem hostStep_clearInstr (s : State) (hn : s.nextAction = .run .clear) :
    ∃ t, exec .clear s.consume = .next t ∧ HostStep s t := by
  refine ⟨_, rfl, ?_⟩
  cases hb : s.busy
  · simpa [hb, clearCommand] using HostStep.clear (s := s) (by simp [State.runsClear, hn]) hb
  · simpa [hb] using HostStep.refused .busyWrite

/-- A step in the host's turn does one of HostStep's things. -/
theorem step_host (s : State) (h : s.hostTurn = true) : ∃ t, step s = .next t ∧ HostStep s t := by
  unfold State.hostTurn at h
  split at h
  · simp at h
  · simp at h
  · next r rest hin =>
    cases hd : decode (.txn r) with
    | error e =>
      have hn : s.nextAction = .idle := by simp [State.nextAction, hin, hostAction, hd]
      exact ⟨_, by simp [step, hn], .nothing⟩
    | ok i =>
      have hn : s.nextAction = .run i := by simp [State.nextAction, hin, hostAction, hd]
      have hs : step s = exec i s.consume := by simp [step, hn]
      rw [hs]
      rw [decodeTxn_ok_iff] at hd
      rcases hd.2 with ⟨-, -, -, rfl⟩ | ⟨-, -, rfl⟩ | ⟨-, -, -, rfl⟩ | ⟨-, -, -, rfl⟩
      · exact hostStep_regRead s _
      · exact hostStep_regWrite s _ _ hn
      · exact hostStep_msgRead s _
      · exact hostStep_msgWrite s _ _
  · next w rest hin =>
    cases hd : decode (.cmd w) with
    | error e =>
      have hn : s.nextAction = .run (.regWrite 0#6 w) := by simp [State.nextAction, hin, commandAction, hd]
      have hs : step s = exec (.regWrite 0#6 w) s.consume := by simp [step, hn]
      rw [hs]
      exact hostStep_regWrite s _ _ hn
    | ok i =>
      have hn : s.nextAction = .run i := by simp [State.nextAction, hin, commandAction, hd]
      have hs : step s = exec i s.consume := by simp [step, hn]
      rw [hs]
      rw [decodeCmd_ok_iff] at hd
      rcases hd with ⟨-, rfl⟩ | ⟨-, rfl⟩
      · exact hostStep_startInstr s hn
      · exact hostStep_clearInstr s hn
  · simp at h

/-! ## Every step -/

/-- Everything one step can do: the sequencer's effect in its turn, one of HostStep's things in the host's, or a reset. -/
theorem step_cases {s t : State} (h : step s = .next t) :
    (s.sequencerTurn = true ∧ t = sequencerEffect s.consume) ∨
    (s.hostTurn = true ∧ HostStep s t) ∨
    (s.nextAction = .reset ∧ t = resetStep s.consume) := by
  by_cases h1 : s.sequencerTurn = true
  · have := step_sequencer s h1
    rw [h] at this
    exact .inl ⟨h1, by simpa using this⟩
  by_cases h2 : s.hostTurn = true
  · obtain ⟨u, hu, hs⟩ := step_host s h2
    rw [h] at hu
    cases hu
    exact .inr (.inl ⟨h2, hs⟩)
  · have hn : s.nextAction = .reset := by
      unfold State.sequencerTurn at h1
      unfold State.hostTurn at h2
      unfold State.nextAction
      split <;> simp_all
    refine .inr (.inr ⟨hn, ?_⟩)
    simp [step, hn] at h
    exact h.symm

/-- In the sequencer's turn the host and the environment do nothing. -/
theorem sequencerTurn_action {s : State} (h : s.sequencerTurn = true) : s.nextAction = sequencerAction s := by
  unfold State.sequencerTurn at h
  unfold State.nextAction
  split at h <;> simp_all

/-- In the sequencer's turn no command runs and nothing is reset. -/
theorem sequencerTurn_alone {s : State} (h : s.sequencerTurn = true) :
    s.runsStart = false ∧ s.runsClear = false ∧ s.nextAction ≠ .reset := by
  have hn := sequencerTurn_action h
  unfold sequencerAction at hn
  cases hd : decode (.sel s.sel9) with
  | error e => rw [hd] at hn; simp [State.runsStart, State.runsClear, hn]
  | ok i =>
    rw [hd] at hn
    rw [decodeSel_ok_iff] at hd
    rcases hd with ⟨-, rfl⟩ | ⟨-, -, rfl⟩ | ⟨-, -, rfl⟩ | ⟨-, -, rfl⟩ | ⟨-, -, rfl⟩ | ⟨-, rfl⟩ | ⟨-, rfl⟩ <;>
      simp [State.runsStart, State.runsClear, hn]

/-- The host's turn is not the sequencer's. -/
theorem hostTurn_not_sequencer {s : State} (h : s.hostTurn = true) : s.sequencerTurn = false := by
  unfold State.hostTurn at h
  unfold State.sequencerTurn
  split at h <;> simp_all

/-- In the host's turn nothing is reset. -/
theorem hostTurn_no_reset {s : State} (h : s.hostTurn = true) : s.nextAction ≠ .reset := by
  unfold State.hostTurn at h
  unfold State.nextAction
  split at h <;> simp_all [hostAction, commandAction] <;> split <;> simp

/-- Outside BUSY the sequencer's turn changes nothing (R180, R277). -/
theorem sequencerEffect_idle (s : State) (h : s.busy = false) : sequencerEffect s = s := by
  rcases (not_busy_iff s).1 h with hp | hp | hp <;> simp only [sequencerEffect, hp]

/-- A reset step runs no command. -/
theorem reset_alone {s : State} (h : s.nextAction = .reset) : s.runsStart = false ∧ s.runsClear = false := by
  simp [State.runsStart, State.runsClear, h]

/-- A step that runs START, in either form, is START on the state with the entry used up (44_host_commands R221). -/
theorem step_start {s : State} (h : s.runsStart = true) : step s = exec .start s.consume := by
  simp only [State.runsStart, Bool.or_eq_true, decide_eq_true_eq] at h
  rcases h with h | h
  · simp only [step, h]
  · simp [step, h, exec, execRegWrite, execStart, writeCommand, -consume_busy]

/-- A step that runs CLEAR, in either form, is CLEAR on the state with the entry used up (R221). -/
theorem step_clear {s : State} (h : s.runsClear = true) : step s = exec .clear s.consume := by
  simp only [State.runsClear, Bool.or_eq_true, decide_eq_true_eq] at h
  rcases h with h | h
  · simp only [step, h]
  · simp [step, h, exec, execRegWrite, execClear, writeCommand, -consume_busy]

/-- START while not BUSY. -/
theorem exec_start_idle {s : State} (h : s.busy = false) : exec .start s = .next (startCommand s) := by
  simp [exec, execStart, h]

/-- CLEAR while not BUSY. -/
theorem exec_clear_idle {s : State} (h : s.busy = false) :
    exec .clear s = .next (forgetWorking (returnToIdle s)) := by
  simp [exec, execClear, h, clearCommand]

end Sys2Proof.Machine
end

