-- ==== Sys2Proof/Laws/Framer.lean ====
section
/-! SUPPORT. The source's framed buffer byte by byte (41_framer R141), and that the padded stream is it (R145). -/

namespace Sys2Proof.Machine

open Sys2Proof

/-- A buffer written over inside its length keeps its length. -/
theorem Md5.overwrite_length {buf bytes : List Byte} {k : Nat} (h : k + bytes.length ≤ buf.length) :
    (Md5.overwrite buf k bytes).length = buf.length := by
  simp [Md5.overwrite]
  omega

/-- Byte `j` of a buffer written over. -/
theorem Md5.overwrite_getElem? {buf bytes : List Byte} {k : Nat} (h : k + bytes.length ≤ buf.length) (j : Nat) :
    (Md5.overwrite buf k bytes)[j]? =
      if j < k then buf[j]? else if j < k + bytes.length then bytes[j - k]? else buf[j]? := by
  have hk : (buf.take k).length = k := by simp; omega
  unfold Md5.overwrite
  rw [List.append_assoc]
  by_cases h1 : j < k
  · rw [List.getElem?_append_left (by omega)]
    simp [h1]
  · rw [if_neg h1, List.getElem?_append_right (by omega), hk]
    by_cases h2 : j < k + bytes.length
    · rw [if_pos h2, List.getElem?_append_left (by omega)]
    · rw [if_neg h2, List.getElem?_append_right (by omega), List.getElem?_drop]
      congr 1
      omega

/-- The framed buffer's length (R141, R142). -/
theorem Md5.frame_length (msg : List Byte) : (Md5.frame msg).length = paddedLength msg.length := by
  have h := paddedLength_ge msg.length
  have h1 : (Md5.overwrite (List.replicate (paddedLength msg.length) (0x00 : Byte)) 0 msg).length =
      paddedLength msg.length := by
    rw [Md5.overwrite_length (by simp; omega)]; simp
  have h2 : (Md5.overwrite (Md5.overwrite (List.replicate (paddedLength msg.length) (0x00 : Byte)) 0 msg)
      msg.length [0x80]).length = paddedLength msg.length := by
    rw [Md5.overwrite_length (by rw [h1]; simp; omega), h1]
  unfold Md5.frame
  simp only
  rw [Md5.overwrite_length (by rw [h2]; simp [le64Bytes]; omega), h2]

/-- Byte `j` of the framed buffer (R141, R143). -/
theorem Md5.frame_getElem? (msg : List Byte) (j : Nat) (hj : j < paddedLength msg.length) :
    (Md5.frame msg)[j]? = some (
      if j < msg.length then msg.getD j 0
      else if j = msg.length then 0x80
      else if paddedLength msg.length - 8 ≤ j then
        le64Byte (BitVec.ofNat 64 (msg.length * 8)) (j - (paddedLength msg.length - 8))
      else 0x00) := by
  have h := paddedLength_ge msg.length
  have h1 : (Md5.overwrite (List.replicate (paddedLength msg.length) (0x00 : Byte)) 0 msg).length =
      paddedLength msg.length := by
    rw [Md5.overwrite_length (by simp; omega)]; simp
  have h2 : (Md5.overwrite (Md5.overwrite (List.replicate (paddedLength msg.length) (0x00 : Byte)) 0 msg)
      msg.length [0x80]).length = paddedLength msg.length := by
    rw [Md5.overwrite_length (by rw [h1]; simp; omega), h1]
  unfold Md5.frame
  simp only
  rw [Md5.overwrite_getElem? (by rw [h2]; simp [le64Bytes]; omega),
    Md5.overwrite_getElem? (by rw [h1]; simp; omega), Md5.overwrite_getElem? (by simp; omega)]
  have hl : (le64Bytes (BitVec.ofNat 64 (msg.length * 8))).length = 8 := by simp [le64Bytes]
  rw [hl]
  by_cases c1 : j < msg.length
  · simp [c1, show j < paddedLength msg.length - 8 by omega]
  · by_cases c2 : j = msg.length
    · subst c2
      simp [show msg.length < paddedLength msg.length - 8 by omega]
    · by_cases c3 : paddedLength msg.length - 8 ≤ j
      · have c4 : j - (paddedLength msg.length - 8) < 8 := by omega
        simp [c1, c2, c3, not_lt.2 c3, show j < paddedLength msg.length - 8 + 8 by omega, le64Bytes, c4]
      · simp [c1, c2, c3, not_le.1 c3, show ¬ j < msg.length + 1 by omega, hj]

/-- A message byte by byte. -/
theorem message_getD (s : State) (j : Nat) (h : j < s.LENL.toNat) : s.message.getD j 0 = s.msgByte j := by
  simp [State.message, h]

/-- The message has the latched length. -/
theorem message_length (s : State) : s.message.length = s.LENL.toNat := by simp [State.message]

/-- The padded stream is the framed message, where PLEN is the padded length (R145, R147). -/
theorem frame_eq_padByte (s : State) (h : s.PLEN.toNat = paddedLength s.LENL.toNat) (j : Nat)
    (hj : j < s.PLEN.toNat) : (Md5.frame s.message)[j]? = some (s.padByte j) := by
  have hl := message_length s
  rw [Md5.frame_getElem? _ _ (by rw [hl, ← h]; exact hj), hl, ← h]
  simp only [State.padByte, if_neg (not_le.2 hj)]
  by_cases c1 : j < s.LENL.toNat
  · rw [if_pos c1, if_pos c1, message_getD s j c1]
  · rw [if_neg c1, if_neg c1]

/-- LOAD reads the framed message's words (R161, R163). -/
theorem blockWord_eq (s : State) (h : s.PLEN.toNat = paddedLength s.LENL.toNat)
    (hb : (s.BLK.toNat + 1) * 64 ≤ s.PLEN.toNat) (w : Nat) (hw : w < 16) :
    s.blockWord w = Md5.blockWord (Md5.frame s.message) s.BLK.toNat w := by
  have key : ∀ j, j < s.PLEN.toNat → s.padByte j = (Md5.frame s.message).getD j 0 := by
    intro j hj
    rw [List.getD_eq_getElem?_getD, frame_eq_padByte s h j hj, Option.getD_some]
  unfold State.blockWord Md5.blockWord
  rw [key _ (by omega), key _ (by omega), key _ (by omega), key _ (by omega)]

end Sys2Proof.Machine
end

