-- ==== Sys2Proof/Machine/HostRun.lean ====
section
/-! DEFINITION. A host program as it runs against a block (30_encoding R104, R105), interleaved with the sequencer and the
environment (20_memory R70). -/

namespace Sys2Proof.Machine

open Sys2Proof

/-- A host program part of the way through. The model's own: the host is outside the block. -/
structure HostRun where
  /-- the instructions left, the next one first -/
  program : List HostCommand
  /-- the results of the lines that have read, oldest first (R104: "the value is the line's result") -/
  results : List Reply
  block : State
  deriving DecidableEq, Repr

/-- Who steps (R70). -/
inductive Turn where
  | host
  | sequencer
  | environment
  deriving DecidableEq, Repr

/-- The block's step on one more entry of `inputs`, placed before those it has. -/
def stepOn (e : Event) (s : State) : Host.Outcome State Fault Refusal := step { s with inputs := e :: s.inputs }

/-- The run after its first instruction `command` presented its line and the block went to `t`. -/
def HostRun.presented (r : HostRun) (command : HostCommand) (rest : List HostCommand) (t : State) : HostRun where
  program := command.leaves t.reply rest
  results := if command.presents.reads then r.results ++ [t.reply] else r.results
  block := t

/-- One step of the interleaving. The host presents its program's next line, or, with none left, does nothing. -/
def HostRun.step (r : HostRun) : Turn → Host.Outcome HostRun Fault Refusal
  | .host =>
    match r.program with
    | [] => .next r
    | command :: rest =>
      match stepOn (.host command.presents.record) r.block with
      | .next t => .next (r.presented command rest t)
      | .fault f => .fault f
      | .refused f => .refused f
  | .sequencer =>
    match stepOn .sequencer r.block with
    | .next t => .next { r with block := t }
    | .fault f => .fault f
    | .refused f => .refused f
  | .environment =>
    match stepOn .reset r.block with
    | .next t => .next { r with block := t }
    | .fault f => .fault f
    | .refused f => .refused f

/-- A run under a schedule, which is any list of turns (R70). -/
def HostRun.run : List Turn → HostRun → Host.Outcome HostRun Fault Refusal
  | [], r => .next r
  | turn :: turns, r =>
    match r.step turn with
    | .next t => HostRun.run turns t
    | .fault f => .fault f
    | .refused f => .refused f

end Sys2Proof.Machine
end

