-- ==== Sys2Proof/Laws/HostRun.lean ====
section
/-! SUPPORT. What a turn of a host program can do, and when a POLL ends (30_encoding R105). -/

namespace Sys2Proof.Machine

open Sys2Proof

@[simp] theorem presents_line (l : HostLine) : (HostCommand.line l).presents = l := rfl

@[simp] theorem presents_poll (reg : RegName) (mask : Word) : (HostCommand.POLL reg mask).presents = .RREG reg := rfl

@[simp] theorem leaves_line (l : HostLine) (reply : Reply) (rest : List HostCommand) :
    (HostCommand.line l).leaves reply rest = rest := rfl

@[simp] theorem leaves_poll (reg : RegName) (mask result : Word) (rest : List HostCommand) :
    (HostCommand.POLL reg mask).leaves (.word result) rest =
      if pollEnds mask result then rest else .POLL reg mask :: rest := rfl

@[simp] theorem presented_program (r : HostRun) (c : HostCommand) (rest : List HostCommand) (t : State) :
    (r.presented c rest t).program = c.leaves t.reply rest := rfl

@[simp] theorem presented_block (r : HostRun) (c : HostCommand) (rest : List HostCommand) (t : State) :
    (r.presented c rest t).block = t := rfl

/-- The host's turn: its next line is presented to the block, and the program goes on as the reply says. -/
theorem hostRun_host {r : HostRun} {c : HostCommand} {rest : List HostCommand} {t : State}
    (hp : r.program = c :: rest) (hs : stepOn (.host c.presents.record) r.block = .next t) :
    r.step .host = .next (r.presented c rest t) := by
  simp [HostRun.step, hp, hs]

/-- A record that decodes runs its instruction on the block as it is. -/
theorem stepOn_host {s : State} {record : BitVec 128} {i : Instr} (h : decode (.txn record) = .ok i) :
    stepOn (.host record) s = exec i s := by
  simp [stepOn, step, State.nextAction, hostAction, State.consume, h]

/-- `POLL STATUS, 0x6` waits for DONE or FAULT (R105). -/
theorem pollEnds_status (s : State) : pollEnds 0x6#32 s.STATUS = true ↔ s.phase = .done ∨ s.phase = .fault := by
  unfold pollEnds State.STATUS State.busy
  cases s.phase <;> cases s.HOSTERR <;> decide

/-- A turn of `POLL STATUS, 0x6`: STATUS is read, and the POLL is done with in DONE and FAULT and stays elsewhere. -/
theorem hostRun_pollStatus {r : HostRun} {rest : List HostCommand} (hp : r.program = .POLL .STATUS 0x6 :: rest) :
    r.step .host = .next {
      program := if r.block.phase = .done ∨ r.block.phase = .fault then rest else r.program
      results := r.results ++ [.word r.block.STATUS]
      block := { r.block with reply := .word r.block.STATUS } } := by
  have hd : decode (.txn (HostLine.RREG .STATUS).record) = .ok (.regRead 1) := by decide
  have hs : stepOn (.host (HostCommand.POLL .STATUS 0x6).presents.record) r.block =
      .next { r.block with reply := .word r.block.STATUS } := stepOn_host hd
  rw [hostRun_host hp hs, hp]
  by_cases h : r.block.phase = .done ∨ r.block.phase = .fault
  · simp [HostRun.presented, (pollEnds_status r.block).2 h, h, HostLine.reads]
  · simp [HostRun.presented, Bool.eq_false_iff.2 (mt (pollEnds_status r.block).1 h), h, HostLine.reads]

end Sys2Proof.Machine
end

