-- ==== Sys2Proof/Laws/OpcodeTable.lean ====
section
/-! SUPPORT. The opcode table's masks, read field by field (spec/opcode_table.json, 30_encoding R91 and R102). -/

namespace Sys2Proof

/-- A masked compare of numbers is a masked compare of bit vectors. -/
theorem toNat_and_eq_iff {w : Nat} (r : BitVec w) (m b : Nat) (hm : m < 2 ^ w) (hb : b < 2 ^ w) :
    r.toNat &&& m = b ↔ r &&& BitVec.ofNat w m = BitVec.ofNat w b := by
  rw [← BitVec.toNat_inj, BitVec.toNat_and, BitVec.toNat_ofNat, BitVec.toNat_ofNat, Nat.mod_eq_of_lt hm,
    Nat.mod_eq_of_lt hb]

/-- A masked compare of a TXN128 record is one of each field. -/
theorem txn_and_eq_iff (r m b : BitVec 128) : r &&& m = b ↔
    (r.extractLsb' 126 2 &&& m.extractLsb' 126 2 = b.extractLsb' 126 2) ∧
    (r.extractLsb' 64 62 &&& m.extractLsb' 64 62 = b.extractLsb' 64 62) ∧
    (r.extractLsb' 38 26 &&& m.extractLsb' 38 26 = b.extractLsb' 38 26) ∧
    (r.extractLsb' 32 6 &&& m.extractLsb' 32 6 = b.extractLsb' 32 6) ∧
    (r.extractLsb' 0 32 &&& m.extractLsb' 0 32 = b.extractLsb' 0 32) := by
  constructor
  · rintro rfl
    simp [BitVec.extractLsb'_and]
  · rintro ⟨hk, ha, hz, hi, hd⟩
    ext n hn
    have bit : ∀ (off len : Nat), r.extractLsb' off len &&& m.extractLsb' off len = b.extractLsb' off len →
        off ≤ n → n - off < len → (r &&& m).getLsbD n = b.getLsbD n := by
      intro off len h h1 h2
      have := congrArg (fun v => v.getLsbD (n - off)) h
      simpa [h2, show off + (n - off) = n by omega] using this
    rw [← BitVec.getLsbD_eq_getElem, ← BitVec.getLsbD_eq_getElem]
    rcases Nat.lt_or_ge n 32 with h | h
    · exact bit 0 32 hd (by omega) (by omega)
    rcases Nat.lt_or_ge n 38 with h | h
    · exact bit 32 6 hi (by omega) (by omega)
    rcases Nat.lt_or_ge n 64 with h | h
    · exact bit 38 26 hz (by omega) (by omega)
    rcases Nat.lt_or_ge n 126 with h | h
    · exact bit 64 62 ha (by omega) (by omega)
    · exact bit 126 2 hk (by omega) (by omega)

/-- MsgWrite's mask leaves DATA[7:0] free. -/
theorem data_high_iff (d : Word) : d &&& 0xffffff00#32 = 0#32 ↔ d.extractLsb' 8 24 = 0#24 := by
  constructor
  · intro h
    ext n hn
    have := congrArg (fun v => v.getLsbD (8 + n)) h
    have hm : ∀ k : Fin 24, (0xffffff00#32).getLsbD (8 + k.val) = true := by decide
    simpa [hm ⟨n, hn⟩] using this
  · intro h
    ext n hn
    rcases Nat.lt_or_ge n 8 with h8 | h8
    · have hm : ∀ k : Fin 8, (0xffffff00#32).getLsbD k.val = false := by decide
      have := hm ⟨n, h8⟩
      simp only at this
      simp [← BitVec.getLsbD_eq_getElem, this]
    · have := congrArg (fun v => v.getLsbD (n - 8)) h
      simp only [BitVec.getLsbD_extractLsb', show 8 + (n - 8) = n by omega, show n - 8 < 24 by omega] at this
      simp at this
      simp [← BitVec.getLsbD_eq_getElem, this]

/-- A row of the TXN128 format covers a record when the masked compare holds. -/
theorem covers_txn_iff (r : BitVec 128) (mnemonic : String) (b m : Nat) (hm : m < 2 ^ 128) (hb : b < 2 ^ 128) :
    OpcodeRow.covers ⟨mnemonic, .txn128, b, m⟩ (.txn r) = true ↔ r &&& BitVec.ofNat 128 m = BitVec.ofNat 128 b := by
  simp [OpcodeRow.covers, Record.format, Record.toNat, toNat_and_eq_iff r m b hm hb]

end Sys2Proof
end

