-- ==== Sys2Proof/Laws/PerInstr.lean ====
section
/-! SUPPORT. Per instruction: its encoding is a word of its own row of spec/opcode_table.json (30_encoding R90). -/

namespace Sys2Proof.Laws

open Sys2Proof

/-- The encoding of a well-formed instruction matches the opcode table's row of its mnemonic. -/
def EncodedWordMatchesRow.Statement (i : Instr) : Prop :=
  i.wellFormed = true → ∃ row ∈ opcodeTable, row.mnemonic = i.mnemonic ∧ row.covers (encode i) = true

/-- A row covers a TXN128 record when its mask and match agree with the record's fields. -/
theorem covers_txn {m : String} {b k : Nat} (kind : BitVec 2) (addr : BitVec 62) (idx : BitVec 6) (data : Word)
    (hb : b < 2 ^ 128) (hk : k < 2 ^ 128)
    (h : (kind &&& (BitVec.ofNat 128 k).extractLsb' 126 2 = (BitVec.ofNat 128 b).extractLsb' 126 2) ∧
      (addr &&& (BitVec.ofNat 128 k).extractLsb' 64 62 = (BitVec.ofNat 128 b).extractLsb' 64 62) ∧
      (0#26 &&& (BitVec.ofNat 128 k).extractLsb' 38 26 = (BitVec.ofNat 128 b).extractLsb' 38 26) ∧
      (idx &&& (BitVec.ofNat 128 k).extractLsb' 32 6 = (BitVec.ofNat 128 b).extractLsb' 32 6) ∧
      (data &&& (BitVec.ofNat 128 k).extractLsb' 0 32 = (BitVec.ofNat 128 b).extractLsb' 0 32)) :
    OpcodeRow.covers ⟨m, .txn128, b, k⟩ (.txn (txnRecord kind addr idx data)) = true := by
  have hm : (txnRecord kind addr idx data).toNat &&& k = b := by
    rw [toNat_and_eq_iff _ _ _ hk hb, txn_and_eq_iff]
    simpa using h
  exact Bool.and_eq_true_iff.mpr ⟨rfl, decide_eq_true hm⟩

theorem EncodedWordMatchesRow.regRead (n : BitVec 6) : EncodedWordMatchesRow.Statement (.regRead n) := fun _ =>
  ⟨⟨"RegRead", .txn128, 0x00000000000000000000000000000000, 0xffffffffffffffffffffffc0ffffffff⟩, by decide, rfl,
    covers_txn _ _ _ _ (by decide) (by decide) (by simp)⟩

theorem EncodedWordMatchesRow.regWrite (n : BitVec 6) (v : Word) : EncodedWordMatchesRow.Statement (.regWrite n v) :=
  fun _ =>
  ⟨⟨"RegWrite", .txn128, 0x40000000000000000000000000000000, 0xffffffffffffffffffffffc000000000⟩, by decide, rfl,
    covers_txn _ _ _ _ (by decide) (by decide) (by simp)⟩

theorem EncodedWordMatchesRow.msgRead (a : Nat) : EncodedWordMatchesRow.Statement (.msgRead a) := fun _ =>
  ⟨⟨"MsgRead", .txn128, 0x80000000000000000000000000000000, 0xc000000000000000ffffffffffffffff⟩, by decide, rfl,
    covers_txn _ _ _ _ (by decide) (by decide) (by simp)⟩

theorem EncodedWordMatchesRow.msgWrite (a : Nat) (b : Byte) : EncodedWordMatchesRow.Statement (.msgWrite a b) :=
  fun _ =>
  ⟨⟨"MsgWrite", .txn128, 0xc0000000000000000000000000000000, 0xc000000000000000ffffffffffffff00⟩, by decide, rfl,
    covers_txn _ _ _ _ (by decide) (by decide)
      ⟨by simp, by simp, by simp, by simp, by
        have : ∀ b : Byte, (0#24 ++ b : BitVec 32) &&& 0xffffff00#32 = 0#32 := by decide
        simpa using this b⟩⟩

theorem EncodedWordMatchesRow.start : EncodedWordMatchesRow.Statement .start := by
  unfold EncodedWordMatchesRow.Statement; decide

theorem EncodedWordMatchesRow.clear : EncodedWordMatchesRow.Statement .clear := by
  unfold EncodedWordMatchesRow.Statement; decide

theorem EncodedWordMatchesRow.load : EncodedWordMatchesRow.Statement .load := by
  unfold EncodedWordMatchesRow.Statement; decide

theorem EncodedWordMatchesRow.roundF (pos : BitVec 4) : EncodedWordMatchesRow.Statement (.roundF pos) := by
  revert pos; unfold EncodedWordMatchesRow.Statement; decide

theorem EncodedWordMatchesRow.roundG (pos : BitVec 4) : EncodedWordMatchesRow.Statement (.roundG pos) := by
  revert pos; unfold EncodedWordMatchesRow.Statement; decide

theorem EncodedWordMatchesRow.roundH (pos : BitVec 4) : EncodedWordMatchesRow.Statement (.roundH pos) := by
  revert pos; unfold EncodedWordMatchesRow.Statement; decide

theorem EncodedWordMatchesRow.roundI (pos : BitVec 4) : EncodedWordMatchesRow.Statement (.roundI pos) := by
  revert pos; unfold EncodedWordMatchesRow.Statement; decide

theorem EncodedWordMatchesRow.fold : EncodedWordMatchesRow.Statement .fold := by
  unfold EncodedWordMatchesRow.Statement; decide

theorem EncodedWordMatchesRow.encode : EncodedWordMatchesRow.Statement .encode := by
  unfold EncodedWordMatchesRow.Statement; decide

end Sys2Proof.Laws
end

