-- ==== Sys2Proof/Laws/Sine.lean ====
section
/-! SUPPORT. Enclosures of sin n and cos n by integers over a scale of 2^400 (40_constant_table R123, R127): a bound at
2^-100, doubled a hundred times up to 1, and 1 added again and again. -/

namespace Sys2Proof.Laws

/-- The scale, 2^400. -/
def scale : ℤ := 2 ^ 200 * 2 ^ 200

theorem scale_pos : 0 < scale := by decide

theorem scale_pos_real : (0 : ℝ) < scale := by exact_mod_cast scale_pos

/-- The sine and the cosine of an angle times the scale, each up to the error. -/
structure Enclosure where
  sine : ℤ
  cosine : ℤ
  error : ℤ

/-- `p` encloses the angle `x`. -/
def Enclosure.Holds (p : Enclosure) (x : ℝ) : Prop :=
  |Real.sin x * scale - (p.sine : ℝ)| ≤ p.error ∧ |Real.cos x * scale - (p.cosine : ℝ)| ≤ p.error

/-- The enclosure of a sum of angles, by the addition formulas. -/
def Enclosure.add (p q : Enclosure) : Enclosure :=
  ⟨(p.sine * q.cosine + p.cosine * q.sine) / scale, (p.cosine * q.cosine - p.sine * q.sine) / scale,
    2 * (p.error + q.error) + 2 * p.error * q.error / scale + 2⟩

/-- Products of two enclosed numbers that are at most one. -/
theorem product_error {a b S s c e e' : ℝ} (hS : 0 < S) (ha : |a| ≤ 1) (hb : |b| ≤ 1) (h1 : |a * S - s| ≤ e)
    (h2 : |b * S - c| ≤ e') : |a * b * S ^ 2 - s * c| ≤ S * (e + e') + e * e' := by
  have he : 0 ≤ e := le_trans (abs_nonneg _) h1
  have hsplit : a * b * S ^ 2 - s * c = (a * S - s) * (b * S) + a * S * (b * S - c) - (a * S - s) * (b * S - c) := by
    ring
  have k1 : |(a * S - s) * (b * S)| ≤ e * S := by
    rw [abs_mul, abs_mul, abs_of_pos hS]
    exact mul_le_mul h1 (by nlinarith [abs_nonneg b]) (by positivity) he
  have k2 : |a * S * (b * S - c)| ≤ S * e' := by
    rw [abs_mul, abs_mul, abs_of_pos hS]
    exact mul_le_mul (by nlinarith [abs_nonneg a]) h2 (abs_nonneg _) hS.le
  have k3 : |(a * S - s) * (b * S - c)| ≤ e * e' := by
    rw [abs_mul]
    exact mul_le_mul h1 h2 (abs_nonneg _) he
  rw [hsplit]
  rw [abs_le] at *
  constructor <;> nlinarith [k1.1, k1.2, k2.1, k2.2, k3.1, k3.2]

/-- Division by the scale rounded down loses less than one. -/
theorem floor_div (v : ℤ) :
    ((v / scale : ℤ) : ℝ) ≤ v / scale ∧ (v : ℝ) / scale < ((v / scale : ℤ) : ℝ) + 1 := by
  have h1 : (v / scale) * scale ≤ v := Int.ediv_mul_le v scale_pos.ne'
  have h2 : v < (v / scale + 1) * scale := Int.lt_ediv_add_one_mul_self v scale_pos
  constructor
  · rw [le_div_iff₀ scale_pos_real]
    exact_mod_cast h1
  · rw [div_lt_iff₀ scale_pos_real]
    exact_mod_cast h2

/-- A sum of two enclosed products, rescaled. -/
theorem rescale {x : ℝ} {v e e' : ℤ}
    (k : |x * (scale : ℝ) ^ 2 - v| ≤ 2 * (scale * ((e : ℝ) + e') + e * e')) :
    |x * scale - ((v / scale : ℤ) : ℝ)| ≤ ((2 * (e + e') + 2 * e * e' / scale + 2 : ℤ) : ℝ) := by
  have hS := scale_pos_real
  obtain ⟨f1, f2⟩ := floor_div v
  obtain ⟨-, g2⟩ := floor_div (2 * e * e')
  have k' : |x * scale - v / scale| ≤ 2 * ((e : ℝ) + e') + 2 * e * e' / scale := by
    have e1 : x * scale - v / scale = (x * (scale : ℝ) ^ 2 - v) / scale := by field_simp
    rw [e1, abs_div, abs_of_pos hS, div_le_iff₀ hS]
    refine le_trans k (le_of_eq ?_)
    field_simp
  push_cast at g2 ⊢
  rw [abs_le] at *
  constructor <;> linarith [k'.1, k'.2]

/-- The enclosure of a sum of angles is an enclosure. -/
theorem Enclosure.Holds.add {x y : ℝ} {p q : Enclosure} (h : p.Holds x) (h' : q.Holds y) : (p.add q).Holds (x + y) := by
  have hS := scale_pos_real
  obtain ⟨h1, h2⟩ := h
  obtain ⟨h1', h2'⟩ := h'
  constructor
  · refine rescale ?_
    have k1 := product_error hS (Real.abs_sin_le_one x) (Real.abs_cos_le_one y) h1 h2'
    have k2 := product_error hS (Real.abs_cos_le_one x) (Real.abs_sin_le_one y) h2 h1'
    rw [Real.sin_add]
    push_cast
    rw [abs_le] at *
    constructor <;> linarith [k1.1, k1.2, k2.1, k2.2]
  · refine rescale ?_
    have k1 := product_error hS (Real.abs_cos_le_one x) (Real.abs_cos_le_one y) h2 h2'
    have k2 := product_error hS (Real.abs_sin_le_one x) (Real.abs_sin_le_one y) h1 h1'
    rw [Real.cos_add]
    push_cast
    rw [abs_le] at *
    constructor <;> linarith [k1.1, k1.2, k2.1, k2.2]

/-- The enclosure at 2^-100: the sine is 2^-100 and the cosine 1 - 2^-201, up to the next terms of their series. -/
def smallAngle : Enclosure := ⟨2 ^ 200 * 2 ^ 100, 2 ^ 200 * 2 ^ 200 - 2 ^ 199, 2 ^ 101⟩

theorem smallAngle_holds : smallAngle.Holds (1 / 2 ^ 100) := by
  have hx : |(1 / 2 ^ 100 : ℝ)| ≤ 1 := by rw [abs_of_pos (by positivity)]; norm_num
  have k1 := Real.sin_bound hx
  have k2 := Real.cos_bound hx
  rw [abs_of_pos (show (0 : ℝ) < 1 / 2 ^ 100 by positivity)] at k1 k2
  rw [abs_le] at k1 k2
  obtain ⟨k1, k1'⟩ := k1
  obtain ⟨k2, k2'⟩ := k2
  constructor <;> simp only [smallAngle, scale] <;> push_cast <;> rw [abs_le] <;> constructor <;> norm_num at * <;>
    linarith

/-- `k` doublings of an angle. -/
def Enclosure.doubled (p : Enclosure) : Nat → Enclosure
  | 0 => p
  | k + 1 => (p.doubled k).add (p.doubled k)

theorem Enclosure.Holds.doubled {x : ℝ} {p : Enclosure} (h : p.Holds x) (k : Nat) : (p.doubled k).Holds (2 ^ k * x) := by
  induction k with
  | zero => rw [pow_zero, one_mul]; exact h
  | succ k ih =>
    have e : (2 : ℝ) ^ (k + 1) * x = 2 ^ k * x + 2 ^ k * x := by ring
    rw [e]
    exact ih.add ih

/-- The enclosure at 1. -/
def oneAngle : Enclosure := smallAngle.doubled 100

theorem oneAngle_holds : oneAngle.Holds 1 := by
  have h := smallAngle_holds.doubled 100
  have e : (2 : ℝ) ^ 100 * (1 / 2 ^ 100) = 1 := by norm_num
  rwa [e] at h

/-- The enclosure at `n + 1`, from the one at 1. -/
def Enclosure.multiple (one : Enclosure) : Nat → Enclosure
  | 0 => one
  | n + 1 => (one.multiple n).add one

/-- The sine and cosine of n + 1, enclosed. -/
theorem multiple_holds (n : Nat) : (oneAngle.multiple n).Holds ((n : ℝ) + 1) := by
  induction n with
  | zero => rw [Nat.cast_zero, zero_add]; exact oneAngle_holds
  | succ n ih => rw [Nat.cast_succ]; exact ih.add oneAngle_holds

end Sys2Proof.Laws
end

