-- ==== Sys2Proof/Tests/Slice0.lean ====
section
/-! SUPPORT. Tests on fixed values from the spec, and for each statement that has hypotheses a witness that meets them. -/

namespace Sys2Proof.Tests

open Sys2Proof Sys2Proof.Machine

/-! ## Small states -/

/-- The state an outcome leaves, if any. -/
def after : Host.Outcome State Fault Refusal → Option State
  | .next t => some t
  | .fault _ => none
  | .refused _ => none

/-- Right after reset, but in phase `p`. -/
def inPhase (p : Phase) : State := { State.reset with phase := p }

/-- In round `ri`, with the state words `q` and every message word `w`. -/
def inRound (ri : BitVec 6) (q : Quad) (w : Word) : State :=
  { State.reset with
    phase := .round, RI := ri, abcd := q, M := #v[w, w, w, w, w, w, w, w, w, w, w, w, w, w, w, w] }

/-- MSG[0 .. 3) = "abc" and LEN = 3 (95_test_vectors P2). -/
def abc : State := { State.reset with MSG := [(0, 0x61), (1, 0x62), (2, 0x63)], LEN_LO := 3 }

/-- A computation over 64 message bytes: two blocks (41_framer R149). -/
def twoBlocks (p : Phase) (ri : BitVec 6) (blk : Dword) : State :=
  { State.reset with
    phase := p, RI := ri, BLK := blk, LEN_LO := 64, LENL := 64, PLEN := 128, abcd := initialVector }

theorem twoBlocks_inv (p : Phase) (ri : BitVec 6) (blk : Dword) (hf : p ≠ .fault)
    (hb : p.busy = true → p ≠ .encode → (blk.toNat + 1) * 64 ≤ 128) (he : p = .encode → blk.toNat * 64 = 128) :
    (twoBlocks p ri blk).Inv where
  msg_wf := by simp [twoBlocks, State.reset]
  msg_range := by simp [twoBlocks, State.reset]
  fault_code := by simp [twoBlocks, hf, State.reset]
  no_cause := fun _ => rfl
  cause := by simp [twoBlocks, State.reset]
  latched := fun _ => by simp [twoBlocks, State.reset, State.len]
  length := fun _ => by simp [twoBlocks, State.reset, State.maxMsgBytes, Config.ofVectors]
  padded := fun _ => by simp [twoBlocks, State.reset, paddedLength]
  inside := fun h h' => hb h h'
  finished := he

/-- IDLE with LEN at the capacity, 120 bytes. -/
def longest : State := { State.reset with LEN_LO := 120 }

theorem longest_inv : longest.Inv where
  msg_wf := by simp [longest, State.reset]
  msg_range := by simp [longest, State.reset]
  fault_code := rfl
  no_cause := fun _ => rfl
  cause := by simp [longest, State.reset]
  latched := fun h => absurd h (by decide)
  length := fun h => absurd h (by decide)
  padded := fun h => absurd h (by decide)
  inside := fun h => absurd h (by decide)
  finished := fun h => absurd h (by decide)

/-- The state of the empty message just before ENCODE. -/
def emptyEncode : State :=
  { State.reset with phase := .encode, PLEN := 64, BLK := 1, abcd := Md5.compress (Md5.frame []) }

theorem emptyEncode_inv : emptyEncode.Inv where
  msg_wf := by simp [emptyEncode, State.reset]
  msg_range := by simp [emptyEncode, State.reset]
  fault_code := rfl
  no_cause := fun _ => rfl
  cause := by simp [emptyEncode, State.reset]
  latched := fun _ => by simp [emptyEncode, State.reset, State.len]
  length := fun _ => Nat.zero_le _
  padded := fun _ => by simp [emptyEncode, State.reset, paddedLength]
  inside := fun _ h => absurd rfl h
  finished := fun _ => rfl

theorem emptyEncode_tracks : emptyEncode.TracksMd5 := by
  have h : emptyEncode.message = [] := rfl
  simp only [State.TracksMd5, h]
  rfl

/-! ## WellFormed refuses ill-formed terms (30_encoding R91: ADDR has 62 bits) -/

theorem test_wellFormed_refuses_long_msgRead : (Instr.msgRead (2 ^ 62)).wellFormed = false := by decide
theorem test_wellFormed_refuses_long_msgWrite : (Instr.msgWrite (2 ^ 62) 0x61).wellFormed = false := by decide
theorem test_wellFormed_accepts_last_address : (Instr.msgRead (2 ^ 62 - 1)).wellFormed = true := by decide

/-! ## Decoding: each row's word, its fields written out from 30_encoding R91, R100, R102 -/

theorem test_decode_regRead :
    decode (.txn (0b00#2 ++ 0#62 ++ 0#26 ++ 0b010111#6 ++ 0#32)) = .ok (.regRead 23) := by decide
theorem test_decode_regWrite :
    decode (.txn (0b01#2 ++ 0#62 ++ 0#26 ++ 0b000011#6 ++ 0x00000079#32)) = .ok (.regWrite 3 121) := by decide
theorem test_decode_msgRead :
    decode (.txn (0b10#2 ++ 55#62 ++ 0#26 ++ 0#6 ++ 0#32)) = .ok (.msgRead 55) := by decide
theorem test_decode_msgWrite :
    decode (.txn (0b11#2 ++ 55#62 ++ 0#26 ++ 0#6 ++ 0x00000071#32)) = .ok (.msgWrite 55 0x71) := by decide
theorem test_decode_start : decode (.cmd 0x00000001#32) = .ok .start := by decide
theorem test_decode_clear : decode (.cmd 0x00000002#32) = .ok .clear := by decide
theorem test_decode_load : decode (.sel 0b001101010#9) = .ok .load := by decide
theorem test_decode_roundF : decode (.sel 0b010001010#9) = .ok (.roundF 10) := by decide
theorem test_decode_roundG : decode (.sel 0b010010000#9) = .ok (.roundG 0) := by decide
theorem test_decode_roundH : decode (.sel 0b010101111#9) = .ok (.roundH 15) := by decide
theorem test_decode_roundI : decode (.sel 0b010111111#9) = .ok (.roundI 15) := by decide
theorem test_decode_fold : decode (.sel 0b011111111#9) = .ok .fold := by decide
theorem test_decode_encode : decode (.sel 0b100000000#9) = .ok .encode := by decide
theorem test_decode_refuses_idle_done_fault :
    decode (.sel 0b000000000#9) = .error .noStep ∧ decode (.sel 0b101000000#9) = .error .noStep ∧
      decode (.sel 0b110000000#9) = .error .noStep ∧ decode (.sel 0b111000000#9) = .error .noStep := by decide
theorem test_decode_refuses_command_zero : decode (.cmd 0#32) = .error .illegalCommand := by decide
theorem test_decode_refuses_addr_in_regWrite :
    decode (.txn (0b01#2 ++ 1#62 ++ 0#26 ++ 3#6 ++ 7#32)) = .error .mustBeZero := by decide

/-! ## One step of each instruction (95_test_vectors) -/

/-- Section 9, H1 and H2; R220's example. -/
theorem test_regRead_status :
    (after (exec (.regRead 1) (inPhase .done))).map (·.reply) = some (.word 0x00000052) ∧
    (after (exec (.regRead 0) (inPhase .load))).map (·.reply) = some (.word 0) ∧
    (after (exec (.regRead 1) (inPhase .encode))).map (·.reply) = some (.word 0x00000041) := by decide

/-- Section 9, H3 and H16. -/
theorem test_regWrite_first_cause_kept :
    ((after (exec (.regWrite 1 0) State.reset)).bind fun t => after (exec (.regWrite 0 5) t)).map (·.ERRCODE) =
      some 0x00000400 := by decide

/-- Section 9, H14: refused while BUSY. -/
theorem test_regWrite_busy :
    (after (exec (.regWrite 3 7) (inPhase .round))).map (fun t => (t.LEN_LO, t.ERRCODE)) = some (0, 0x00000100) := by
  decide

/-- Section 9, H7; R222's example. -/
theorem test_msgRead :
    (after (exec (.msgRead 1000) State.reset)).map (·.reply) = some (.byte 0x00) ∧
    (after (exec (.msgRead 1) abc)).map (·.reply) = some (.byte 0x62) := by decide

/-- Section 9, H6; the last address that exists is 119. -/
theorem test_msgWrite_range :
    (after (exec (.msgWrite 120 0) State.reset)).map (·.ERRCODE) = some 0x00000500 ∧
    (after (exec (.msgWrite 119 7) State.reset)).map (fun t => (t.MSG, t.ERRCODE)) = some ([(119, 7)], 0) := by decide

/-- Section 9, H8 and H11. -/
theorem test_start_length_fault :
    (after (exec .start { State.reset with LEN_LO := 121 })).map (fun t => (t.STATUS, t.ERRCODE, t.LEN_LO)) =
      some (0x00000064, 0x00000001, 121) := by decide

/-- Section 9, H9; section 5's table. -/
theorem test_start_accepted :
    (after (exec .start { State.reset with LEN_LO := 120 })).map (fun t => (t.phase, t.PLEN, t.abcd)) =
      some (.load, 192, ⟨0x67452301, 0xefcdab89, 0x98badcfe, 0x10325476⟩) := by decide

/-- Section 9, H12 and H13. -/
theorem test_clear :
    (after (exec .clear { inPhase .fault with FCODE := 1, HOSTERR := true, HOSTERR_CAUSE := 3 })).map
        (fun t => (t.STATUS, t.ERRCODE)) = some (0, 0) ∧
    (after (exec .clear (inPhase .round))).map (fun t => (t.phase, t.ERRCODE)) = some (.round, 0x00000100) := by decide

/-- Section 5, "abc". -/
theorem test_load_abc :
    (after (exec .load { abc with phase := .load, LENL := 3, PLEN := 64, BLK := 0 })).map
        (fun t => (t.M[0], t.M[1], t.M[14], t.M[15])) = some (0x80636261, 0, 0x00000018, 0) := by decide

/-- Section 4, the sum that wraps three times. -/
theorem test_roundF_triple_wrap :
    (after (exec (.roundF 10) (inRound 10 ⟨0xffffffff, 0, 0, 0xffffffff⟩ 0xffffffff))).map (·.abcd) =
      some ⟨0xffffffff, 0xb75dfffe, 0, 0⟩ := by decide

/-- R172's example: round 0 of "abc". -/
theorem test_roundF_abc :
    (after (exec (.roundF 0) (inRound 0 initialVector 0x80636261))).map (·.abcd) =
      some ⟨0x10325476, 0xd6d117b4, 0xefcdab89, 0x98badcfe⟩ := by decide

/-- R173's example: round 16 of "abc". -/
theorem test_roundG_abc :
    (after (exec (.roundG 0) (inRound 16 ⟨0xdda9b9a6, 0x72aff2e0, 0xe396856b, 0xa1051895⟩ 0))).map (·.abcd) =
      some ⟨0xa1051895, 0x3e9e9126, 0x72aff2e0, 0xe396856b⟩ := by decide

/-- R174's example: round 32 of "abc". -/
theorem test_roundH_abc :
    (after (exec (.roundH 0) (inRound 32 ⟨0x790a77fb, 0x726342d3, 0xa62884aa, 0x9f47e4f8⟩ 0))).map (·.abcd) =
      some ⟨0x9f47e4f8, 0xb3707ebf, 0x726342d3, 0xa62884aa⟩ := by decide

/-- Section 4, all ones in the last round; section 3, round 63 of "abc". -/
theorem test_roundI_last :
    (after (exec (.roundI 15) (inRound 63 ⟨0xffffffff, 0xffffffff, 0xffffffff, 0xffffffff⟩ 0xffffffff))).map
        (fun t => (t.abcd, t.phase, t.RI)) = some (⟨0xffffffff, 0x71fd70d9, 0xffffffff, 0xffffffff⟩, .fold, 63) ∧
    (after (exec (.roundI 15) (inRound 63 ⟨0x7327d604, 0xe484b9d8, 0x624d8cb2, 0x310ade8f⟩ 0))).map (·.abcd) =
      some ⟨0x310ade8f, 0xc08226b3, 0xe484b9d8, 0x624d8cb2⟩ := by decide

/-- R176's example: the end of "abc". -/
theorem test_fold_abc :
    (after (exec .fold { inPhase .fold with
        PLEN := 64, orig := initialVector, abcd := ⟨0x310ade8f, 0xc08226b3, 0xe484b9d8, 0x624d8cb2⟩ })).map
      (fun t => (t.abcd, t.phase, t.BLK)) =
      some (⟨0x98500190, 0xb04fd23c, 0x7d3f96d6, 0x727fe128⟩, .encode, 1) := by decide

/-- Section 6, S6 block 0: another block follows. -/
theorem test_fold_chains :
    (after (exec .fold { inPhase .fold with
        PLEN := 128, orig := initialVector, abcd := ⟨0x1cb80f0a, 0xef2e3a46, 0x10f68731, 0xea3d3eb4⟩ })).map
      (fun t => (t.abcd, t.phase, t.BLK)) =
      some (⟨0x83fd320b, 0xdefbe5cf, 0xa9b1642f, 0xfa6f932a⟩, .load, 1) := by decide

/-- Section 7, "abc" and S5 (a zero byte). -/
theorem test_encode :
    (after (exec .encode { inPhase .encode with abcd := ⟨0x98500190, 0xb04fd23c, 0x7d3f96d6, 0x727fe128⟩ })).map
        (fun t => (t.phase, t.DIGEST, t.HEX)) =
      some (.done, #v[0x98500190, 0xb04fd23c, 0x7d3f96d6, 0x727fe128],
        #v[0x31303039, 0x38393035, 0x32646333, 0x30626634, 0x36393664, 0x64376633, 0x31653832, 0x32376637]) ∧
    (after (exec .encode { inPhase .encode with abcd := ⟨0xd7d3fcc3, 0x00e49261, 0x6c49fb7d, 0x3be167ca⟩ })).map
        (fun t => t.HEX[3]) = some 0x30303465 := by decide

/-- R105: SETLEN and MD5 expand as the spec writes them (95_test_vectors P3, P6). -/
theorem test_notation :
    (setLen 56).map HostLine.record = [0x40000000000000000000000300000038, 0x40000000000000000000000400000000] ∧
    (md5Program [0x61]).map (fun c => c.presents.record) =
      [0xc0000000000000000000000000000061, 0x40000000000000000000000300000001, 0x40000000000000000000000400000000,
        0x40000000000000000000000000000001, 0x00000000000000000000000100000000] := by decide

/-- A host program part of the way through. -/
def waiting (s : State) : HostRun := ⟨[.POLL .STATUS 0x6, .line (.RREG (.DIGEST 0))], [], s⟩

/-- What is left of a program, and what its reads have returned. -/
def progress : Host.Outcome HostRun Fault Refusal → Option (List HostCommand × List Reply)
  | .next r => some (r.program, r.results)
  | .fault _ => none
  | .refused _ => none

/-- 95_test_vectors P1: a POLL read in ENCODE returns 0x41 and the POLL stays; after the sequencer's step it returns 0x52
and the program goes on. -/
theorem test_poll :
    progress ((waiting (inPhase .encode)).run [.host]) =
      some ([.POLL .STATUS 0x6, .line (.RREG (.DIGEST 0))], [.word 0x41]) ∧
    progress ((waiting (inPhase .encode)).run [.host, .sequencer, .host]) =
      some ([.line (.RREG (.DIGEST 0))], [.word 0x41, .word 0x52]) := by decide

/-- Section 1, S3: the source's function on "abc". -/
theorem test_md5_abc :
    Md5.digest [0x61, 0x62, 0x63] =
      [0x90, 0x01, 0x50, 0x98, 0x3c, 0xd2, 0x4f, 0xb0, 0xd6, 0x96, 0x3f, 0x7d, 0x28, 0xe1, 0x7f, 0x72] := by
  decide +kernel

/-! ## Witnesses: each statement with hypotheses has a state and operands that meet them together -/

/-- `WMSG 0, 0x62` (95_test_vectors P5). -/
def wmsgRecord : BitVec 128 := 0xc0000000000000000000000000000062

/-- `RREG STATUS`. -/
def rregRecord : BitVec 128 := 0x00000000000000000000000100000000

/-- A host step in a state. -/
theorem host_steps (s : State) (h : s.hostTurn = true) : ∃ t, step s = .next t :=
  let ⟨t, ht, _⟩ := step_host s h
  ⟨t, ht⟩

theorem witness_DecodeOfEncodeIsInstruction : (Instr.msgWrite (2 ^ 62 - 1) 0xff).wellFormed = true := by decide

theorem witness_DecodedWordIsTheEncoding :
    decode (.txn wmsgRecord) = .ok (.msgWrite 0 0x62) ∧ decode (.cmd 1) = .ok .start ∧
    decode (.sel 0b010111111#9) = .ok (.roundI 15) ∧ (0b010111111#9).extractLsb' 6 3 = 2#3 := by decide

theorem witness_DecoderAgreesWithOpcodeTable :
    ∃ row ∈ opcodeTable, row.covers (.sel 0b010011111#9) = true ∧ row.mnemonic = "ROUND_G" :=
  ⟨⟨"ROUND_G", .sel9, 0x090, 0x1f0⟩, by decide, by decide, rfl⟩

theorem witness_StepRunsTheDecodedInstruction :
    ({ State.reset with inputs := [.host wmsgRecord] } : State).inputs = .host wmsgRecord :: [] ∧
    decode (.txn wmsgRecord) = .ok (.msgWrite 0 0x62) ∧
    ({ State.reset with inputs := [.command 2] } : State).inputs = .command 2 :: [] ∧
    decode (.cmd 2) = .ok .clear ∧
    ({ inPhase .fold with inputs := [.sequencer] } : State).inputs = .sequencer :: [] ∧
    decode (.sel (inPhase .fold).sel9) = .ok .fold ∧
    (twoBlocks .round 63 1).inputs = [] ∧ decode (.sel (twoBlocks .round 63 1).sel9) = .ok (.roundI 15) := by
  decide

/-- One record for each clause, with the clause's lowest or highest bit set. -/
theorem witness_MustBeZeroBitsRefuseTheRecord :
    (1#128 <<< 38).extractLsb' 38 26 ≠ 0 ∧ (1#128 <<< 63).extractLsb' 38 26 ≠ 0 ∧
    ((1#128 <<< 125).getLsbD 127 = false ∧ (1#128 <<< 125).extractLsb' 64 62 ≠ 0) ∧
    ((1#128 <<< 127 ||| 1#128 <<< 37).getLsbD 127 = true ∧
      (1#128 <<< 127 ||| 1#128 <<< 37).extractLsb' 32 6 ≠ 0) ∧
    ((1#128 <<< 31).getLsbD 126 = false ∧ (1#128 <<< 31).extractLsb' 0 32 ≠ 0) ∧
    ((3#128 <<< 126 ||| 1#128 <<< 8).getLsbD 127 = true ∧ (3#128 <<< 126 ||| 1#128 <<< 8).getLsbD 126 = true ∧
      (3#128 <<< 126 ||| 1#128 <<< 8).extractLsb' 8 24 ≠ 0) ∧
    ({ State.reset with inputs := [.host (1#128 <<< 63)] } : State).inputs = .host (1#128 <<< 63) :: [] := by decide

theorem witness_ResetLeavesStatedValues :
    ({ inPhase .round with inputs := [.reset] } : State).inputs = .reset :: [] := by decide

theorem witness_ResetKeepsParametersAndInputs :
    ({ inPhase .round with inputs := [.reset, .sequencer] } : State).inputs = .reset :: [.sequencer] := by decide

theorem witness_NoStepChangesTheParameters : ∃ t, step { inPhase .round with inputs := [.host wmsgRecord] } = .next t :=
  host_steps _ rfl

theorem witness_StepKeepsTheInvariant :
    (twoBlocks .fold 63 0).Inv ∧ ∃ t, step (twoBlocks .fold 63 0) = .next t :=
  ⟨twoBlocks_inv _ _ _ (by decide) (by decide) (by decide), _, step_sequencer _ rfl⟩

theorem witness_StepKeepsRegistersOnMd5 :
    (twoBlocks .load 0 0).Inv ∧ (twoBlocks .load 0 0).TracksMd5 ∧ ∃ t, step (twoBlocks .load 0 0) = .next t :=
  ⟨twoBlocks_inv _ _ _ (by decide) (by decide) (by decide), rfl, _, step_sequencer _ rfl⟩

theorem witness_EncodeStepDeliversTheDigest :
    emptyEncode.Inv ∧ emptyEncode.TracksMd5 ∧ emptyEncode.phase = .encode ∧ emptyEncode.sequencerTurn = true :=
  ⟨emptyEncode_inv, emptyEncode_tracks, rfl, rfl⟩

/-- The longest message that fits: the length is the capacity, 120 bytes. -/
theorem witness_AcceptedStartIsDoneAfterExactSteps :
    longest.Inv ∧ longest.inputs = [] ∧ longest.busy = false ∧ longest.phase ≠ .fault ∧
    longest.len ≤ longest.maxMsgBytes ∧ longest.len = 120 ∧ longest.maxMsgBytes = 120 :=
  ⟨longest_inv, rfl, rfl, by decide, by decide, by decide, rfl⟩

theorem witness_SequencerAlwaysProgresses :
    (twoBlocks .round 63 1).Inv ∧ (twoBlocks .round 63 1).busy = true ∧
    (∃ t, step (twoBlocks .round 63 1) = .next t) ∧ (twoBlocks .round 63 1).sequencerTurn = true ∧
    (∃ t, step { twoBlocks .round 63 1 with inputs := [.host wmsgRecord] } = .next t) ∧
    State.hostTurn { twoBlocks .round 63 1 with inputs := [.host wmsgRecord] } = true :=
  ⟨twoBlocks_inv _ _ _ (by decide) (by decide) (by decide), rfl, ⟨_, step_sequencer _ rfl⟩, rfl,
    host_steps _ rfl, rfl⟩

/-- Each of the table's rows, at the values where they meet. -/
theorem witness_SequencerFollowsItsTable :
    ((twoBlocks .load 0 1).Inv ∧ (twoBlocks .load 0 1).sequencerTurn = true) ∧
    ((twoBlocks .round 62 1).Inv ∧ (twoBlocks .round 62 1).RI.toNat < 63) ∧
    ((twoBlocks .round 63 1).Inv ∧ (twoBlocks .round 63 1).RI.toNat = 63) ∧
    ((twoBlocks .fold 63 0).Inv ∧ ((twoBlocks .fold 63 0).BLK.toNat + 1) * 64 < (twoBlocks .fold 63 0).PLEN.toNat) ∧
    ((twoBlocks .fold 63 1).Inv ∧ ¬ ((twoBlocks .fold 63 1).BLK.toNat + 1) * 64 < (twoBlocks .fold 63 1).PLEN.toNat) ∧
    (twoBlocks .encode 63 2).Inv ∧ ((twoBlocks .done 63 2).Inv ∧ (twoBlocks .done 63 2).busy = false) :=
  ⟨⟨twoBlocks_inv _ _ _ (by decide) (by decide) (by decide), rfl⟩,
    ⟨twoBlocks_inv _ _ _ (by decide) (by decide) (by decide), by decide⟩,
    ⟨twoBlocks_inv _ _ _ (by decide) (by decide) (by decide), rfl⟩,
    ⟨twoBlocks_inv _ _ _ (by decide) (by decide) (by decide), by decide⟩,
    ⟨twoBlocks_inv _ _ _ (by decide) (by decide) (by decide), by decide⟩,
    twoBlocks_inv _ _ _ (by decide) (by decide) (by decide),
    twoBlocks_inv _ _ _ (by decide) (by decide) (by decide), rfl⟩

theorem witness_InputIsFrozenWhileBusy :
    State.busy { inPhase .round with inputs := [.host wmsgRecord] } = true ∧
    State.nextAction { inPhase .round with inputs := [.host wmsgRecord] } ≠ .reset ∧
    ∃ t, step { inPhase .round with inputs := [.host wmsgRecord] } = .next t :=
  ⟨rfl, by decide, host_steps _ rfl⟩

theorem witness_HostCannotDisturbAComputation :
    State.busy { inPhase .encode with inputs := [.command 2] } = true ∧
    State.hostTurn { inPhase .encode with inputs := [.command 2] } = true ∧
    ∃ t, step { inPhase .encode with inputs := [.command 2] } = .next t :=
  ⟨rfl, rfl, host_steps _ rfl⟩

theorem witness_DoneHoldsTheResult :
    (inPhase .done).phase = .done ∧ (∃ t, step { inPhase .done with inputs := [.host rregRecord] } = .next t) ∧
    State.runsStart { inPhase .done with inputs := [.host rregRecord] } = false ∧
    State.runsClear { inPhase .done with inputs := [.host rregRecord] } = false ∧
    State.nextAction { inPhase .done with inputs := [.host rregRecord] } ≠ .reset :=
  ⟨rfl, host_steps _ rfl, by decide, by decide, by decide⟩

theorem witness_FaultHoldsUntilClearOrReset :
    (inPhase .fault).phase = .fault ∧ (∃ t, step { inPhase .fault with inputs := [.command 1] } = .next t) ∧
    State.runsClear { inPhase .fault with inputs := [.command 1] } = false ∧
    State.nextAction { inPhase .fault with inputs := [.command 1] } ≠ .reset ∧
    State.runsClear { inPhase .fault with inputs := [.command 2] } = true ∧
    (∃ t, step { inPhase .fault with inputs := [.command 2] } = .next t) ∧
    State.nextAction { inPhase .fault with inputs := [.reset] } = .reset :=
  ⟨rfl, host_steps _ rfl, by decide, by decide, by decide, host_steps _ rfl, by decide⟩

/-- A step that does raise it. -/
theorem witness_OnlyLenRangeIsEverRaised :
    after (step { State.reset with LEN_LO := 121, inputs := [.command 1] }) =
      some { State.reset with LEN_LO := 121, FCODE := 1, phase := .fault } := by decide

theorem witness_FirstHostErrorIsKept :
    State.HOSTERR { inPhase .round with HOSTERR := true, HOSTERR_CAUSE := 4, inputs := [.command 2] } = true ∧
    (∃ t, step { inPhase .round with HOSTERR := true, HOSTERR_CAUSE := 4, inputs := [.command 2] } = .next t) ∧
    State.nextAction { inPhase .round with HOSTERR := true, HOSTERR_CAUSE := 4, inputs := [.command 2] } ≠ .reset ∧
    ¬ (State.runsClear { inPhase .round with HOSTERR := true, HOSTERR_CAUSE := 4, inputs := [.command 2] } = true ∧
      State.busy { inPhase .round with HOSTERR := true, HOSTERR_CAUSE := 4, inputs := [.command 2] } = false) :=
  ⟨rfl, host_steps _ rfl, by decide, by decide⟩

/-- Each kind of register does change in some such step. -/
theorem witness_WorkingRegistersHaveTheirWriters :
    (step (inPhase .round) = .next (sequencerEffect (inPhase .round)) ∧
      (sequencerEffect (inPhase .round)).abcd ≠ (inPhase .round).abcd) ∧
    (step (twoBlocks .load 0 0) = .next (loadBlock (twoBlocks .load 0 0)) ∧
      (loadBlock (twoBlocks .load 0 0)).orig ≠ (twoBlocks .load 0 0).orig) ∧
    (after (step { State.reset with inputs := [.command 1] }) = some (started State.reset) ∧
      (started State.reset).PLEN ≠ State.reset.PLEN) ∧
    ((sequencerEffect (inPhase .round)).RI ≠ (inPhase .round).RI ∧
      (loadBlock (twoBlocks .load 63 0)).RI ≠ (twoBlocks .load 63 0).RI) ∧
    (step (twoBlocks .fold 63 0) = .next (foldBlock (twoBlocks .fold 63 0)) ∧
      (foldBlock (twoBlocks .fold 63 0)).BLK ≠ (twoBlocks .fold 63 0).BLK ∧
      (started (twoBlocks .done 63 2)).BLK ≠ (twoBlocks .done 63 2).BLK) ∧
    (inPhase .round).runsClear = false ∧ (inPhase .round).nextAction ≠ .reset :=
  ⟨⟨step_sequencer _ rfl, by decide⟩, ⟨step_sequencer _ rfl, by decide⟩, ⟨by decide, by decide⟩,
    ⟨by decide, by decide⟩, ⟨step_sequencer _ rfl, by decide, by decide⟩, by decide, by decide⟩

theorem witness_SequencerLeavesHostState :
    (inPhase .fold).sequencerTurn = true ∧ (inPhase .fold).phase ≠ .encode ∧ ∃ t, step (inPhase .fold) = .next t :=
  ⟨rfl, by decide, _, step_sequencer _ rfl⟩

/-- Two blocks with different numbers. -/
def sideBySide : Blocks := [State.reset, { inPhase .round with cfg := { Config.ofVectors with unit := 1 } }]

theorem witness_BlocksDoNotInteract :
    sideBySide[1]? = some { inPhase .round with cfg := { Config.ofVectors with unit := 1 } } ∧ sideBySide.distinct :=
  ⟨rfl, by decide⟩

theorem witness_ErrcodeShowsFaultAndCause : (twoBlocks .round 0 0).Inv :=
  twoBlocks_inv _ _ _ (by decide) (by decide) (by decide)

theorem witness_RegReadReturnsTheRegister :
    (inPhase .done).phase = .done ∧ ∀ n : BitVec 6, n ∈ [5, 7, 12, 15, 24, 63] →
      (5 ≤ n.toNat ∧ n.toNat ≤ 7) ∨ (12 ≤ n.toNat ∧ n.toNat ≤ 15) ∨ 24 ≤ n.toNat := by decide

theorem witness_ReadsOfUnspecifiedOutputComplete :
    (inPhase .round).phase ≠ .done ∧ ∀ n : BitVec 6, n ∈ [8, 11, 16, 23] →
      (8 ≤ n.toNat ∧ n.toNat ≤ 11) ∨ (16 ≤ n.toNat ∧ n.toNat ≤ 23) := by decide

/-- Two states that differ in every hidden register. -/
theorem witness_HiddenRegistersAreNotObservable :
    ∃ s s' : State, s.abcd ≠ s'.abcd ∧ s.RI ≠ s'.RI ∧ s.PLEN ≠ s'.PLEN ∧ s.DIGEST ≠ s'.DIGEST ∧
      s.cfg = s'.cfg ∧ s.phase = s'.phase ∧ s.HOSTERR = s'.HOSTERR ∧ s.HOSTERR_CAUSE = s'.HOSTERR_CAUSE ∧
      s.FCODE = s'.FCODE ∧ s.LEN_LO = s'.LEN_LO ∧ s.LEN_HI = s'.LEN_HI ∧ s.MSG = s'.MSG ∧ s.epoch = s'.epoch ∧
      s.fresh = s'.fresh ∧ (s.phase = .done → s.DIGEST = s'.DIGEST ∧ s.HEX = s'.HEX) ∧
      (∃ t, exec (.regRead 8) s = .next t) ∧ (∃ t, exec (.regRead 8) s' = .next t) ∧
      (∃ t, exec (.msgRead 0) s = .next t) ∧ ∃ t, exec (.msgRead 0) s' = .next t :=
  ⟨State.reset, { State.reset with abcd := initialVector, RI := 1, PLEN := 64, DIGEST := #v[1, 0, 0, 0] },
    by decide, by decide, by decide, by decide, rfl, rfl, rfl, rfl, rfl, rfl, rfl, rfl, rfl, rfl, by decide,
    ⟨_, rfl⟩, ⟨_, rfl⟩, ⟨_, rfl⟩, ⟨_, rfl⟩⟩

theorem witness_ReservedAndReadOnlyIndices : ∀ n : BitVec 6, n ∈ [1, 2, 5, 8, 23, 63] → n ≠ 0 ∧ n ≠ 3 ∧ n ≠ 4 := by
  decide

theorem witness_BusyRefusesWrites :
    (inPhase .load).phase = .load ∧ (inPhase .encode).phase = .encode ∧
    ∃ t : State, t = { inPhase .load with HOSTERR := true, HOSTERR_CAUSE := 1 } := ⟨rfl, rfl, _, rfl⟩

theorem witness_LenWriteStoresTheValue :
    ∀ p ∈ [Phase.idle, .done, .fault],
      (inPhase p).phase = .idle ∨ (inPhase p).phase = .done ∨ (inPhase p).phase = .fault := by decide

theorem witness_IllegalCommandIsRefused :
    (inPhase .done).phase = .done ∧ ((0 : Word) ≠ 1 ∧ (0 : Word) ≠ 2) ∧
    ((3 : Word) ≠ 1 ∧ (3 : Word) ≠ 2) ∧
    ({ inPhase .done with inputs := [.command 3] } : State).inputs = .command 3 :: [] :=
  ⟨rfl, by decide, by decide, rfl⟩

theorem witness_MsgReadReturnsTheByte : 119 < State.reset.maxMsgBytes ∧ State.reset.maxMsgBytes ≤ 120 := by decide

theorem witness_MsgWriteStoresTheByte :
    (inPhase .load).busy = true ∧ (inPhase .fault).busy = false ∧ (inPhase .fault).maxMsgBytes ≤ 120 ∧
    119 < (inPhase .fault).maxMsgBytes := by decide

theorem witness_StartBeginsAComputation :
    (inPhase .fault).phase = .fault ∧
    (121 = State.len { State.reset with LEN_LO := 121 } ∧
      State.reset.phase = .idle ∧ State.reset.maxMsgBytes < 121) ∧
    (120 = State.len { State.reset with LEN_LO := 120 } ∧
      120 ≤ State.reset.maxMsgBytes) ∧
    0 = State.reset.LEN_HI.toNat * 2 ^ 32 + State.reset.LEN_LO.toNat :=
  ⟨rfl, ⟨by simp [State.len, State.reset], rfl, by decide⟩, ⟨by simp [State.len, State.reset], by decide⟩,
    by simp [State.reset]⟩

theorem witness_ClearReturnsToIdle :
    (inPhase .idle).phase = .idle ∧ (inPhase .done).phase = .done ∧ (inPhase .fault).phase = .fault := by decide

theorem witness_PaddedLengthIsTheLeastThatFits :
    128 % 64 = 0 ∧ 56 + 9 ≤ 128 ∧ 55 % 64 ≤ 55 ∧ 56 ≤ 56 % 64 ∧ 56 ≤ 63 % 64 := by decide

theorem witness_PaddedStreamIsTheFramedMessage :
    (twoBlocks .load 0 1).Inv ∧ (twoBlocks .load 0 1).busy = true ∧ 127 < (twoBlocks .load 0 1).PLEN.toNat :=
  ⟨twoBlocks_inv _ _ _ (by decide) (by decide) (by decide), rfl, by decide⟩

theorem witness_PaddedStreamLayout :
    (twoBlocks .load 0 0).Inv ∧ (twoBlocks .load 0 0).busy = true ∧ 63 < (twoBlocks .load 0 0).LENL.toNat ∧
    (twoBlocks .load 0 0).LENL.toNat < 65 ∧ 119 < (twoBlocks .load 0 0).PLEN.toNat - 8 :=
  ⟨twoBlocks_inv _ _ _ (by decide) (by decide) (by decide), rfl, by decide, by decide, by decide⟩

/-- The byte at the first address past the length differs. -/
theorem witness_LoadIgnoresBytesPastTheLength :
    State.phase { abc with phase := .load, LENL := 3, PLEN := 64 } = .load ∧
    (∀ a, a < 3 → State.msgByte { abc with MSG := [(0, 0x61), (1, 0x62), (2, 0x63), (3, 0xff)] } a = abc.msgByte a) ∧
    ∃ t, exec .load { abc with phase := .load, LENL := 3, PLEN := 64 } = .next t :=
  ⟨rfl, by decide, _, rfl⟩

theorem witness_LoadReadsTheBlock : (twoBlocks .load 0 1).phase = .load := rfl

theorem witness_RoundFUpdatesTheState :
    (twoBlocks .round 0b001111 0).phase = .round ∧ (twoBlocks .round 0b001111 0).RI = 0b00#2 ++ 15#4 := by decide

theorem witness_RoundGUpdatesTheState :
    (twoBlocks .round 0b010000 0).phase = .round ∧ (twoBlocks .round 0b010000 0).RI = 0b01#2 ++ 0#4 := by decide

theorem witness_RoundHUpdatesTheState :
    (twoBlocks .round 0b101111 0).phase = .round ∧ (twoBlocks .round 0b101111 0).RI = 0b10#2 ++ 15#4 := by decide

theorem witness_RoundIUpdatesTheState :
    (twoBlocks .round 0b111111 0).phase = .round ∧ (twoBlocks .round 0b111111 0).RI = 0b11#2 ++ 15#4 := by decide

theorem witness_RoundFunctionsBitByBit : (0 : Nat) < 32 ∧ 31 < 32 := by decide

theorem witness_RoundIndicesAreInRange : 63 < 64 ∧ (twoBlocks .round 63 0).selectsRound .I 15 = true := by decide

theorem witness_MessageScheduleIsAPermutation :
    15 < 16 ∧ 13 < 16 ∧ wordIndex .G (16 * Group.G.code.toNat + 6) = 15 := by decide

theorem witness_RoundConstantsAreSines : 0 < 64 ∧ 63 < 64 := by decide

theorem witness_ShiftsAreTrueRotations : 4 ∈ shiftTable ∧ 23 ∈ shiftTable ∧ 1 ≤ 31 ∧ 31 < 32 := by decide

theorem witness_FoldAddsTheSavedState : (twoBlocks .fold 63 1).phase = .fold := rfl

theorem witness_UnselectedMicroOperationsChangeNothing :
    (inPhase .done).phase ≠ .load ∧ ¬ ((twoBlocks .round 16 0).phase = .round ∧ (twoBlocks .round 16 0).RI = 0b00#2 ++ 0#4) ∧
    (inPhase .done).phase ≠ .fold ∧ (inPhase .done).phase ≠ .encode := by decide

theorem witness_EncodeWritesDigestAndHex : (twoBlocks .encode 63 2).phase = .encode := rfl

theorem witness_SerializeAndHexAreBytewise : 3 < 4 ∧ ([0x04, 0xf0] : List Byte)[1]? = some 0xf0 := by decide

theorem witness_HexIsLowercaseAndInjective :
    0x66 ∈ hexString [0xf0] ∧ serialize initialVector = serialize initialVector ∧
    hexString [0x04] = hexString [0x04] := ⟨by decide, rfl, rfl⟩

end Sys2Proof.Tests
end

/-! SUPPORT. Proofs of the statements of 00_scope: the sequencer's effect field by field and phase by phase, what it keeps
of the invariant and of the position on the source's function, and a computation left alone from START to DONE. -/

namespace Sys2Proof.Machine

open Sys2Proof

/-! ## What the sequencer leaves unchanged, field by field -/

section
variable (s : State)

@[simp] theorem sequencerEffect_cfg : (sequencerEffect s).cfg = s.cfg := by unfold sequencerEffect; split <;> rfl
@[simp] theorem sequencerEffect_LENL : (sequencerEffect s).LENL = s.LENL := by unfold sequencerEffect; split <;> rfl
@[simp] theorem sequencerEffect_PLEN : (sequencerEffect s).PLEN = s.PLEN := by unfold sequencerEffect; split <;> rfl
@[simp] theorem sequencerEffect_HOSTERR : (sequencerEffect s).HOSTERR = s.HOSTERR := by
  unfold sequencerEffect; split <;> rfl
@[simp] theorem sequencerEffect_HOSTERR_CAUSE : (sequencerEffect s).HOSTERR_CAUSE = s.HOSTERR_CAUSE := by
  unfold sequencerEffect; split <;> rfl
@[simp] theorem sequencerEffect_FCODE : (sequencerEffect s).FCODE = s.FCODE := by unfold sequencerEffect; split <;> rfl
@[simp] theorem sequencerEffect_LEN_LO : (sequencerEffect s).LEN_LO = s.LEN_LO := by
  unfold sequencerEffect; split <;> rfl
@[simp] theorem sequencerEffect_LEN_HI : (sequencerEffect s).LEN_HI = s.LEN_HI := by
  unfold sequencerEffect; split <;> rfl
@[simp] theorem sequencerEffect_MSG : (sequencerEffect s).MSG = s.MSG := by unfold sequencerEffect; split <;> rfl
@[simp] theorem sequencerEffect_inputs : (sequencerEffect s).inputs = s.inputs := by
  unfold sequencerEffect; split <;> rfl
@[simp] theorem sequencerEffect_epoch : (sequencerEffect s).epoch = s.epoch := by unfold sequencerEffect; split <;> rfl

@[simp] theorem sequencerEffect_len : (sequencerEffect s).len = s.len := by simp [State.len]
@[simp] theorem sequencerEffect_maxMsgBytes : (sequencerEffect s).maxMsgBytes = s.maxMsgBytes := by
  simp [State.maxMsgBytes]
@[simp] theorem sequencerEffect_msgByte (a : Nat) : (sequencerEffect s).msgByte a = s.msgByte a := by
  simp [State.msgByte]
@[simp] theorem sequencerEffect_message : (sequencerEffect s).message = s.message := by
  simp [State.message, funext (sequencerEffect_msgByte s)]

end

/-! ## Every step: the parameters and the input entries -/

/-- A host step leaves the parameters. -/
theorem HostStep.cfg_eq {s t : State} (h : HostStep s t) : t.cfg = s.cfg := by cases h <;> rfl

/-- A host step uses up its own input entry. -/
theorem HostStep.inputs_eq {s t : State} (h : HostStep s t) : t.inputs = s.inputs.tail := by cases h <;> rfl

/-- A step in the environment's turn (70_reset_and_hazards R280). -/
theorem step_reset {s : State} (h : s.nextAction = .reset) : step s = .next (resetStep s.consume) := by
  simp [step, h]

/-- Settles O59: the step is `resetStep`, whose frame lemmas say the rest. -/
theorem resetKeepsParametersAndInputs : Obligations.ResetKeepsParametersAndInputs := by
  intro s rest h
  have hn : s.nextAction = .reset := by simp [State.nextAction, h]
  exact ⟨_, step_reset hn, by simp, by simp [h], by simp⟩

/-- Settles O60, by the three kinds of step. -/
theorem noStepChangesTheParameters : Obligations.NoStepChangesTheParameters := by
  intro s t h
  have key : t.cfg = s.cfg ∧ t.inputs = s.inputs.tail := by
    rcases step_cases h with ⟨-, rfl⟩ | ⟨-, hs⟩ | ⟨-, rfl⟩
    · simp
    · exact ⟨hs.cfg_eq, hs.inputs_eq⟩
    · simp
  obtain ⟨hcfg, hinputs⟩ := key
  exact ⟨hcfg, by rw [State.maxMsgBytes, hcfg, State.maxMsgBytes], hinputs⟩

/-! ## Rotations (00_scope R10, 40_constant_table R127) -/

/-- Bit `n` of a rotation: below the amount it comes from the word's top bits, from there on from the bit `r` below. -/
theorem rotl32_getLsbD (x : Word) {r n : Nat} (hr : r ≤ 32) (hn : n < 32) :
    (rotl32 x r).getLsbD n = if n < r then x.getLsbD (32 - r + n) else x.getLsbD (n - r) := by
  unfold rotl32
  rw [BitVec.getLsbD_or, BitVec.getLsbD_shiftLeft, BitVec.getLsbD_ushiftRight]
  by_cases h : n < r
  · simp [h, hn]
  · have hout : x.getLsbD (32 - r + n) = false := BitVec.getLsbD_of_ge _ _ (by omega)
    simp [h, hn, hout]

/-- Settles O53: the table's entries by evaluation, the rotation bit by bit. -/
theorem shiftsAreTrueRotations : Obligations.ShiftsAreTrueRotations := by
  refine ⟨by decide, fun x r n h1 h31 hn => ?_⟩
  rw [rotl32_getLsbD x (by omega) hn]
  split
  · rw [show (n + 32 - r) % 32 = 32 - r + n by omega]
  · rw [show (n + 32 - r) % 32 = n - r by omega]

/-! ## The sequencer's effect, by phase (42_compressor R180) -/

section
variable {s : State}

theorem sequencerEffect_of_load (h : s.phase = .load) : sequencerEffect s = loadBlock s := by simp [sequencerEffect, h]

theorem sequencerEffect_of_round (h : s.phase = .round) :
    sequencerEffect s = rounded (Group.ofRound s.RI.toNat) s := by simp [sequencerEffect, h]

theorem sequencerEffect_of_fold (h : s.phase = .fold) : sequencerEffect s = foldBlock s := by simp [sequencerEffect, h]

theorem sequencerEffect_of_encode (h : s.phase = .encode) : sequencerEffect s = encodeDigest s := by
  simp [sequencerEffect, h]

@[simp] theorem rounded_PLEN (g : Group) (s : State) : (rounded g s).PLEN = s.PLEN := rfl
@[simp] theorem rounded_BLK (g : Group) (s : State) : (rounded g s).BLK = s.BLK := rfl
@[simp] theorem foldBlock_PLEN (s : State) : (foldBlock s).PLEN = s.PLEN := rfl

/-- Round 63 moves on to FOLD. -/
theorem rounded_phase_last (g : Group) (h : s.RI.toNat = 63) : (rounded g s).phase = .fold := if_pos h

/-- Every other round stays in its phase. -/
theorem rounded_phase_more (g : Group) (h : s.RI.toNat ≠ 63) : (rounded g s).phase = s.phase := if_neg h

/-- RI counts on before round 63. -/
theorem rounded_RI_toNat (g : Group) (h : s.RI.toNat ≠ 63) : (rounded g s).RI.toNat = s.RI.toNat + 1 := by
  have hRI : (rounded g s).RI = s.RI + 1 := if_neg h
  have := s.RI.isLt
  simp [hRI]
  omega

/-- FOLD moves on to ENCODE after the last block. -/
theorem foldBlock_phase_last (h : (s.BLK.toNat + 1) * 64 = s.PLEN.toNat) : (foldBlock s).phase = .encode := if_pos h

/-- FOLD moves on to LOAD before the last block. -/
theorem foldBlock_phase_more (h : (s.BLK.toNat + 1) * 64 ≠ s.PLEN.toNat) : (foldBlock s).phase = .load := if_neg h

/-- BLK counts on while its block lies inside the padded stream. -/
theorem foldBlock_BLK_toNat (h : (s.BLK.toNat + 1) * 64 ≤ s.PLEN.toNat) :
    (foldBlock s).BLK.toNat = s.BLK.toNat + 1 := by
  have hBLK : (foldBlock s).BLK = s.BLK + 1 := rfl
  have := s.PLEN.isLt
  simp [hBLK]
  omega

/-- A block that is BUSY after the sequencer's turn was BUSY before it. -/
theorem busy_of_sequencerEffect_busy (h : (sequencerEffect s).busy = true) : s.busy = true := by
  by_contra hb
  rw [sequencerEffect_idle s (Bool.eq_false_iff.2 hb)] at h
  exact hb h

end

/-- The sequencer neither enters FAULT nor leaves it. -/
theorem sequencerEffect_phase_fault (s : State) : (sequencerEffect s).phase = .fault ↔ s.phase = .fault := by
  cases hp : s.phase with
  | load => simp [sequencerEffect_of_load hp, loadBlock]
  | round =>
    rw [sequencerEffect_of_round hp]
    by_cases hr : s.RI.toNat = 63
    · simp [rounded_phase_last _ hr]
    · simp [rounded_phase_more _ hr, hp]
  | fold =>
    rw [sequencerEffect_of_fold hp]
    by_cases hl : (s.BLK.toNat + 1) * 64 = s.PLEN.toNat
    · simp [foldBlock_phase_last hl]
    · simp [foldBlock_phase_more hl]
  | encode => simp [sequencerEffect_of_encode hp, encodeDigest]
  | idle => simp [sequencerEffect, hp]
  | done => simp [sequencerEffect, hp]
  | fault => simp [sequencerEffect, hp]

/-! ## What the sequencer keeps of the invariant -/

section
variable {s : State} (h : s.Inv)
include h

/-- While BUSY the padded length is a whole number of blocks (41_framer R142). -/
theorem State.Inv.PLEN_mod (hb : s.busy = true) : s.PLEN.toNat % 64 = 0 := by
  rw [h.padded hb, paddedLength_mod]

/-- In FOLD the current block lies inside the padded stream (42_compressor R160). -/
theorem State.Inv.inside_fold (hp : s.phase = .fold) : (s.BLK.toNat + 1) * 64 ≤ s.PLEN.toNat :=
  h.inside ((busy_iff s).2 (by simp [hp])) (by simp [hp])

/-- Before the last block FOLD moves on to a block inside the padded stream. -/
theorem foldBlock_inside (hp : s.phase = .fold) (hmore : (s.BLK.toNat + 1) * 64 ≠ s.PLEN.toNat) :
    ((foldBlock s).BLK.toNat + 1) * 64 ≤ s.PLEN.toNat := by
  have hin := h.inside_fold hp
  have hmod := h.PLEN_mod ((busy_iff s).2 (by simp [hp]))
  rw [foldBlock_BLK_toNat hin, Nat.add_mul, Nat.one_mul]
  omega

/-- Until ENCODE the sequencer keeps the current block inside the padded stream (R180). -/
theorem sequencerEffect_inside (hb : (sequencerEffect s).busy = true) (he : (sequencerEffect s).phase ≠ .encode) :
    ((sequencerEffect s).BLK.toNat + 1) * 64 ≤ s.PLEN.toNat := by
  have hbs := busy_of_sequencerEffect_busy hb
  have hin := h.inside hbs
  rcases (busy_iff s).1 hbs with hp | hp | hp | hp
  · rw [sequencerEffect_of_load hp]
    exact hin (by simp [hp])
  · rw [sequencerEffect_of_round hp]
    exact hin (by simp [hp])
  · rw [sequencerEffect_of_fold hp] at he ⊢
    exact foldBlock_inside h hp fun hl => he (foldBlock_phase_last hl)
  · rw [sequencerEffect_of_encode hp] at hb
    exact absurd hb (by simp [encodeDigest, State.busy, Phase.busy])

/-- When the sequencer enters ENCODE all blocks are done (R180). -/
theorem sequencerEffect_finished (he : (sequencerEffect s).phase = .encode) :
    (sequencerEffect s).BLK.toNat * 64 = s.PLEN.toNat := by
  rcases (busy_iff s).1 (busy_of_sequencerEffect_busy ((busy_iff _).2 (by simp [he]))) with hp | hp | hp | hp
  · simp [sequencerEffect_of_load hp, loadBlock] at he
  · rw [sequencerEffect_of_round hp] at he
    by_cases hr : s.RI.toNat = 63
    · simp [rounded_phase_last _ hr] at he
    · simp [rounded_phase_more _ hr, hp] at he
  · rw [sequencerEffect_of_fold hp] at he ⊢
    rw [foldBlock_BLK_toNat (h.inside_fold hp)]
    by_contra hl
    simp [foldBlock_phase_more hl] at he
  · simp [sequencerEffect_of_encode hp, encodeDigest] at he

/-- The sequencer's turn keeps the invariant. -/
theorem sequencerEffect_inv : (sequencerEffect s).Inv where
  msg_wf := by simpa using h.msg_wf
  msg_range := by simpa using h.msg_range
  fault_code := by simpa [sequencerEffect_phase_fault] using h.fault_code
  no_cause := by simpa using h.no_cause
  cause := by simpa using h.cause
  latched hb := by simpa using h.latched (busy_of_sequencerEffect_busy hb)
  length hb := by simpa using h.length (busy_of_sequencerEffect_busy hb)
  padded hb := by simpa using h.padded (busy_of_sequencerEffect_busy hb)
  inside hb he := by simpa using sequencerEffect_inside h hb he
  finished he := by simpa using sequencerEffect_finished h he

end

/-! ## What the sequencer keeps of the position on the source's function (R184, R185) -/

section
variable {s : State}

theorem tracks_iff_of_load (h : s.phase = .load) :
    s.TracksMd5 ↔ s.abcd = Md5.chain (Md5.frame s.message) s.BLK.toNat := by simp [State.TracksMd5, h]

theorem tracks_iff_of_round (h : s.phase = .round) :
    s.TracksMd5 ↔ (∀ w : Fin 16, s.M[w] = Md5.blockWord (Md5.frame s.message) s.BLK.toNat w.val) ∧
      s.orig = Md5.chain (Md5.frame s.message) s.BLK.toNat ∧
      s.abcd = Md5.rounds (Md5.blockWord (Md5.frame s.message) s.BLK.toNat) s.RI.toNat
        (Md5.chain (Md5.frame s.message) s.BLK.toNat) := by simp [State.TracksMd5, h]

theorem tracks_iff_of_fold (h : s.phase = .fold) :
    s.TracksMd5 ↔ s.orig = Md5.chain (Md5.frame s.message) s.BLK.toNat ∧
      s.abcd = Md5.rounds (Md5.blockWord (Md5.frame s.message) s.BLK.toNat) 64
        (Md5.chain (Md5.frame s.message) s.BLK.toNat) := by simp [State.TracksMd5, h]

theorem tracks_iff_of_encode (h : s.phase = .encode) :
    s.TracksMd5 ↔ s.abcd = Md5.compress (Md5.frame s.message) := by simp [State.TracksMd5, h]

/-- Outside BUSY no computation is tracked. -/
theorem tracks_of_not_busy (h : s.busy = false) : s.TracksMd5 := by
  rcases (not_busy_iff s).1 h with hp | hp | hp <;> simp [State.TracksMd5, hp]

/-- LOAD leaves M with the framed message's block and the state words at round 0. -/
theorem loadBlock_tracks (h : s.Inv) (hp : s.phase = .load) (ht : s.TracksMd5) : (loadBlock s).TracksMd5 := by
  have hb : s.busy = true := (busy_iff s).2 (by simp [hp])
  have habcd := (tracks_iff_of_load hp).1 ht
  refine (tracks_iff_of_round rfl).2 ⟨fun w => ?_, habcd, habcd⟩
  have hM : (loadBlock s).M[w] = s.blockWord w.val := by simp [loadBlock]
  rw [hM]
  exact blockWord_eq s (h.padded hb) (h.inside hb (by simp [hp])) w.val w.isLt

/-- A round of the block is the source's round, where M holds the block's words (R163, R170). -/
theorem rounded_abcd {words : Nat → Word} (hM : ∀ w : Fin 16, s.M[w] = words w.val) :
    (rounded (Group.ofRound s.RI.toNat) s).abcd = Md5.round words s.RI.toNat s.abcd := by
  have hk := wordIndex_lt s.RI.toNat s.RI.isLt
  have hm : s.M[wordIndex (Group.ofRound s.RI.toNat) s.RI.toNat]?.getD 0 =
      words (wordIndex (Group.ofRound s.RI.toNat) s.RI.toNat) := by
    rw [Vector.getElem?_eq_getElem hk, Option.getD_some]
    exact hM ⟨_, hk⟩
  simp only [rounded, hm, Md5.round]

/-- A round is one more of the block's 64. -/
theorem rounded_tracks (hp : s.phase = .round) (ht : s.TracksMd5) :
    (rounded (Group.ofRound s.RI.toNat) s).TracksMd5 := by
  obtain ⟨hM, horig, habcd⟩ := (tracks_iff_of_round hp).1 ht
  have hround : (rounded (Group.ofRound s.RI.toNat) s).abcd =
      Md5.rounds (Md5.blockWord (Md5.frame s.message) s.BLK.toNat) (s.RI.toNat + 1)
        (Md5.chain (Md5.frame s.message) s.BLK.toNat) := by
    rw [rounded_abcd hM, habcd, Md5.rounds]
  by_cases hr : s.RI.toNat = 63
  · rw [hr] at hround
    exact (tracks_iff_of_fold (rounded_phase_last _ hr)).2 ⟨horig, by rw [hr]; exact hround⟩
  · rw [← rounded_RI_toNat (Group.ofRound s.RI.toNat) hr] at hround
    exact (tracks_iff_of_round ((rounded_phase_more _ hr).trans hp)).2 ⟨hM, horig, hround⟩

/-- The source's `compress` folds all blocks of the framed message (R163). -/
theorem compress_frame_message (s : State) :
    Md5.compress (Md5.frame s.message) = Md5.chain (Md5.frame s.message) (paddedLength s.LENL.toNat / 64) := by
  rw [Md5.compress, Md5.frame_length, message_length]

/-- FOLD is the source's fold of one more block. -/
theorem foldBlock_tracks (h : s.Inv) (hp : s.phase = .fold) (ht : s.TracksMd5) : (foldBlock s).TracksMd5 := by
  obtain ⟨horig, habcd⟩ := (tracks_iff_of_fold hp).1 ht
  have hfold : (foldBlock s).abcd = Md5.chain (Md5.frame s.message) (s.BLK.toNat + 1) := by
    simp only [foldBlock, horig, habcd, Md5.chain]
  by_cases hl : (s.BLK.toNat + 1) * 64 = s.PLEN.toNat
  · have hblocks : paddedLength s.LENL.toNat / 64 = s.BLK.toNat + 1 := by
      rw [← h.padded ((busy_iff s).2 (by simp [hp])), ← hl, Nat.mul_div_cancel _ (by omega)]
    refine (tracks_iff_of_encode (foldBlock_phase_last hl)).2 (hfold.trans ?_)
    rw [← hblocks]
    exact (compress_frame_message s).symm
  · rw [← foldBlock_BLK_toNat (h.inside_fold hp)] at hfold
    exact (tracks_iff_of_load (foldBlock_phase_more hl)).2 hfold

/-- The sequencer's turn moves the registers on along the source's function. -/
theorem sequencerEffect_tracks (h : s.Inv) (ht : s.TracksMd5) : (sequencerEffect s).TracksMd5 := by
  by_cases hb : s.busy = true
  · rcases (busy_iff s).1 hb with hp | hp | hp | hp
    · rw [sequencerEffect_of_load hp]
      exact loadBlock_tracks h hp ht
    · rw [sequencerEffect_of_round hp]
      exact rounded_tracks hp ht
    · rw [sequencerEffect_of_fold hp]
      exact foldBlock_tracks h hp ht
    · rw [sequencerEffect_of_encode hp]
      exact tracks_of_not_busy rfl
  · rwa [sequencerEffect_idle s (Bool.eq_false_iff.2 hb)]

end

/-! ## The steps left -/

/-- While BUSY the sequencer's turn is one of the steps left (R180, R182). -/
theorem sequencerEffect_stepsLeft {s : State} (h : s.Inv) (hb : s.busy = true) :
    (sequencerEffect s).stepsLeft + 1 = s.stepsLeft := by
  have hRI := s.RI.isLt
  rcases (busy_iff s).1 hb with hp | hp | hp | hp
  · simp [sequencerEffect_of_load hp, loadBlock, State.stepsLeft, hp]
  · have hin := h.inside hb (by simp [hp])
    rw [sequencerEffect_of_round hp]
    by_cases hr : s.RI.toNat = 63
    · simp only [State.stepsLeft, rounded_phase_last _ hr, hp, rounded_PLEN, rounded_BLK, hr]
      omega
    · simp only [State.stepsLeft, rounded_phase_more _ hr, hp, rounded_PLEN, rounded_BLK, rounded_RI_toNat _ hr]
      omega
  · have hmod := h.PLEN_mod hb
    have hin := h.inside_fold hp
    rw [sequencerEffect_of_fold hp]
    by_cases hl : (s.BLK.toNat + 1) * 64 = s.PLEN.toNat
    · simp only [State.stepsLeft, foldBlock_phase_last hl, hp]
      omega
    · simp only [State.stepsLeft, foldBlock_phase_more hl, hp, foldBlock_PLEN, foldBlock_BLK_toNat hin]
      omega
  · simp [sequencerEffect_of_encode hp, encodeDigest, State.stepsLeft, hp]

section
variable {s : State}

/-- Outside BUSY no step is left. -/
theorem stepsLeft_of_not_busy (hb : s.busy = false) : s.stepsLeft = 0 := by
  rcases (not_busy_iff s).1 hb with hp | hp | hp <;> simp only [State.stepsLeft, hp]

/-- In LOAD, ROUND and FOLD at least two steps are left: the block's own and ENCODE's. -/
theorem State.Inv.two_le_stepsLeft (h : s.Inv) (hb : s.busy = true) (he : s.phase ≠ .encode) : 2 ≤ s.stepsLeft := by
  have hin := h.inside hb he
  have hRI := s.RI.isLt
  rcases (busy_iff s).1 hb with hp | hp | hp | hp
  · simp only [State.stepsLeft, hp]
    omega
  · simp only [State.stepsLeft, hp]
    omega
  · simp only [State.stepsLeft, hp]
    omega
  · exact absurd hp he

/-- The last step left is ENCODE's (R180). -/
theorem State.Inv.encode_of_stepsLeft (h : s.Inv) (hn : s.stepsLeft = 1) : s.phase = .encode := by
  by_contra he
  by_cases hb : s.busy = true
  · have := h.two_le_stepsLeft hb he
    omega
  · have := stepsLeft_of_not_busy (Bool.eq_false_iff.2 hb)
    omega

end

/-! ## The end of a computation -/

/-- ENCODE delivers the message's digest and hex string where A to D hold the compressed message (43_encoder R207). -/
theorem encodeDigest_delivers {s : State} (h : s.abcd = Md5.compress (Md5.frame s.message)) :
    (encodeDigest s).phase = .done ∧ (encodeDigest s).digestBytes = Md5.digest s.message ∧
      (encodeDigest s).hexChars = Md5.md5Hex s.message := by
  have hd : serialize s.abcd = Md5.digest s.message := by rw [h, Md5.digest]
  refine ⟨rfl, ?_, ?_⟩
  · rw [← hd]
    exact packed_four _ (serialize_length s.abcd)
  · rw [Md5.md5Hex, ← hd]
    exact packed_eight _ (by rw [hexString_length, serialize_length])

/-- The sequencer's turn in ENCODE, with the registers on the source's function. -/
theorem sequencerEffect_delivers {s : State} (ht : s.TracksMd5) (hp : s.phase = .encode) :
    (sequencerEffect s).phase = .done ∧ (sequencerEffect s).digestBytes = Md5.digest s.message ∧
      (sequencerEffect s).hexChars = Md5.md5Hex s.message := by
  rw [sequencerEffect_of_encode hp]
  exact encodeDigest_delivers ((tracks_iff_of_encode hp).1 ht)

/-- Settles O12: the step is ENCODE's effect on the state with the sequencer's entry used up. -/
theorem encodeStepDeliversTheDigest : Obligations.EncodeStepDeliversTheDigest := fun s _ ht hp hturn =>
  ⟨_, step_sequencer s hturn, sequencerEffect_delivers (s := s.consume) ht hp⟩

/-! ## A computation left alone (42_compressor R182, R183) -/

/-- A state of the computation over `msg` with `n` sequencer steps left to DONE. -/
structure Computing (msg : List Byte) (n : Nat) (s : State) : Prop where
  inv : s.Inv
  tracks : s.TracksMd5
  message : s.message = msg
  stepsLeft : s.stepsLeft = n

/-- With a step left the block is BUSY. -/
theorem Computing.busy {msg : List Byte} {n : Nat} {s : State} (h : Computing msg (n + 1) s) : s.busy = true := by
  by_contra hb
  have hzero := stepsLeft_of_not_busy (Bool.eq_false_iff.2 hb)
  rw [h.stepsLeft] at hzero
  omega

/-- The sequencer's turn takes one of the steps left. -/
theorem Computing.turn {msg : List Byte} {n : Nat} {s : State} (h : Computing msg (n + 1) s) :
    Computing msg n (sequencerEffect s) where
  inv := sequencerEffect_inv h.inv
  tracks := sequencerEffect_tracks h.inv h.tracks
  message := by rw [sequencerEffect_message, h.message]
  stepsLeft := by
    have hone := sequencerEffect_stepsLeft h.inv h.busy
    rw [h.stepsLeft] at hone
    omega

/-- `k` turns of the sequencer take `k` of the steps left. -/
theorem Computing.iterate {msg : List Byte} {n : Nat} (k : Nat) {s : State} (h : Computing msg (n + k) s) :
    Computing msg n (sequencerEffect^[k] s) := by
  induction k generalizing s with
  | zero => exact h
  | succ k ih => exact ih h.turn

/-- With no input entry left every step is the sequencer's turn (log 2). -/
theorem step_alone {s : State} (h : s.inputs = []) : step s = .next (sequencerEffect s) := by
  have hc : s.consume = s := by rw [State.consume, h, List.tail_nil, ← h]
  rw [step_sequencer s (by simp [State.sequencerTurn, h]), hc]

/-- With no input entry left, `k` steps are `k` turns of the sequencer. -/
theorem stepN_alone (k : Nat) {s : State} (h : s.inputs = []) : stepN k s = .next (sequencerEffect^[k] s) := by
  induction k generalizing s with
  | zero => rfl
  | succ k ih =>
    rw [stepN, step_alone h]
    exact ih (by rw [sequencerEffect_inputs, h])

/-- An accepted START keeps the invariant (44_host_commands R224). -/
theorem started_inv {s : State} (h : s.Inv) (hl : s.len ≤ s.maxMsgBytes) : (started s).Inv where
  msg_wf := h.msg_wf
  msg_range := h.msg_range
  fault_code := rfl
  no_cause := h.no_cause
  cause := h.cause
  latched _ := started_lenl s hl
  length _ := by rw [started_lenl s hl]; exact hl
  padded _ := by rw [started_plen s hl, started_lenl s hl]
  inside _ _ := by
    have : (started s).BLK.toNat = 0 := rfl
    have := paddedLength_mod s.len
    have := paddedLength_ge s.len
    rw [started_plen s hl]
    omega
  finished hp := absurd hp (by simp [started])

/-- An accepted START begins the computation over MSG[0 .. LEN), 66 * NB + 1 steps from DONE (R182, R224). -/
theorem started_computing {s : State} (h : s.Inv) (hl : s.len ≤ s.maxMsgBytes) :
    Computing ((List.range s.len).map s.msgByte) (66 * (paddedLength s.len / 64) + 1) (started s) where
  inv := started_inv h hl
  tracks := rfl
  message := by rw [State.message, started_lenl s hl]; rfl
  stepsLeft := by
    have hs : (started s).stepsLeft = 66 * ((started s).PLEN.toNat / 64 - 0) + 1 := rfl
    rw [hs, started_plen s hl, Nat.sub_zero]

/-- START where it is accepted (R224). -/
theorem exec_start_accepted {s : State} (hb : s.busy = false) (hf : s.phase ≠ .fault)
    (hl : s.len ≤ s.maxMsgBytes) : exec .start s = .next (started s) := by
  rw [exec_start_idle hb]
  rcases startCommand_cases s with ⟨hf', -⟩ | ⟨-, hl', -⟩ | ⟨-, -, he⟩
  · exact absurd hf' hf
  · omega
  · rw [he]

/-- Settles O13: START begins a computation with 66 * NB + 1 steps left, and each step takes one of them. -/
theorem acceptedStartIsDoneAfterExactSteps : Obligations.AcceptedStartIsDoneAfterExactSteps := by
  intro s h hin hb hf hl
  have hcomp := started_computing h hl
  have hin' : (started s).inputs = [] := hin
  have hlast : Computing ((List.range s.len).map s.msgByte) 1
      (sequencerEffect^[66 * (paddedLength s.len / 64)] (started s)) :=
    Computing.iterate _ (by rw [Nat.add_comm]; exact hcomp)
  have hend := sequencerEffect_delivers hlast.tracks (hlast.inv.encode_of_stepsLeft hlast.stepsLeft)
  rw [hlast.message, ← Function.iterate_succ_apply' sequencerEffect] at hend
  obtain ⟨hdone, hdigest, hhex⟩ := hend
  refine ⟨_, _, exec_start_accepted hb hf hl, stepN_alone _ hin', hdone, hdigest, hhex, fun k hk => ?_⟩
  have hcomp_k : Computing ((List.range s.len).map s.msgByte) (66 * (paddedLength s.len / 64) - k + 1)
      (sequencerEffect^[k] (started s)) :=
    Computing.iterate k (by rw [show _ - k + 1 + k = 66 * (paddedLength s.len / 64) + 1 by omega]; exact hcomp)
  exact ⟨_, stepN_alone k hin', hcomp_k.busy⟩

end Sys2Proof.Machine

/-! SUPPORT. Proofs of the statements of 10_state: what every step keeps of the invariant, of the position on the source's
function, of the host-error record and of the working registers, and what the status registers show. -/

namespace Sys2Proof.Machine

open Sys2Proof

/-! ## What every step keeps of the invariant -/

/-- Outside BUSY the invariant speaks of MSG and the error records only. -/
theorem State.Inv.of_not_busy {s : State} (hb : s.busy = false) (msg_wf : Memory.wf s.MSG)
    (msg_range : ∀ c ∈ s.MSG, c.1 < s.maxMsgBytes)
    (fault_code : s.FCODE = if s.phase = .fault then FaultCode.lenRange.code else 0)
    (no_cause : s.HOSTERR = false → s.HOSTERR_CAUSE = 0)
    (cause : s.HOSTERR = true → 1 ≤ s.HOSTERR_CAUSE.toNat ∧ s.HOSTERR_CAUSE.toNat ≤ 5) : s.Inv where
  msg_wf := msg_wf
  msg_range := msg_range
  fault_code := fault_code
  no_cause := no_cause
  cause := cause
  latched h := absurd h (by simp [hb])
  length h := absurd h (by simp [hb])
  padded h := absurd h (by simp [hb])
  inside h := absurd h (by simp [hb])
  finished hp := absurd ((busy_iff s).2 (by simp [hp])) (by simp [hb])

section
variable {s : State} (h : s.Inv)
include h

/-- The input entries are no part of the invariant. -/
theorem State.Inv.consume : s.consume.Inv := { h with }

/-- A refused write keeps the invariant: the cause it records is one of the five (60_exceptions R261, R262). -/
theorem State.Inv.hostError (c : HostCause) : (hostError c s).Inv where
  msg_wf := h.msg_wf
  msg_range := h.msg_range
  fault_code := h.fault_code
  no_cause := by simp
  cause _ := by
    cases he : s.HOSTERR with
    | false => rw [hostError_cause_first s c he]; exact c.code_range
    | true => rw [hostError_cause_kept s c he]; exact h.cause he
  latched := h.latched
  length := h.length
  padded := h.padded
  inside := h.inside
  finished := h.finished

/-- A fault that START raises keeps the invariant (60_exceptions R252, R256). -/
theorem raiseFault_inv : (raiseFault .lenRange s).Inv :=
  .of_not_busy rfl h.msg_wf h.msg_range rfl h.no_cause h.cause

/-- A MSG write below the capacity keeps the memory canonical and inside its range (20_memory R61). -/
theorem msgWrite_inv (hb : s.busy = false) {a : Nat} (ha : a < s.maxMsgBytes) (b : Byte) :
    State.Inv { s with MSG := Memory.write s.MSG a b } := by
  refine .of_not_busy hb (Memory.write_wf h.msg_wf a b) (fun c hc => ?_) h.fault_code h.no_cause h.cause
  rcases Memory.mem_write hc with rfl | hc
  · exact ha
  · exact h.msg_range c hc

/-- An accepted CLEAR leaves MSG and no error record (44_host_commands R229). -/
theorem clear_inv : (forgetWorking (returnToIdle s)).Inv :=
  .of_not_busy rfl h.msg_wf h.msg_range rfl (fun _ => rfl) (by simp)

/-- A host step keeps the invariant. -/
theorem HostStep.inv {t : State} (ht : HostStep s t) : t.Inv := by
  have hc := h.consume
  cases ht with
  | nothing => exact hc
  | read r k => exact { h with }
  | refused c => exact hc.hostError c
  | lenLo v hb => exact .of_not_busy hb h.msg_wf h.msg_range h.fault_code h.no_cause h.cause
  | lenHi v hb => exact .of_not_busy hb h.msg_wf h.msg_range h.fault_code h.no_cause h.cause
  | msg a b hb ha => exact msgWrite_inv hc hb ha b
  | startRefused hr hp => exact hc.hostError .cmdInFault
  | startFault hr hb hp hl => exact raiseFault_inv hc
  | startAccepted hr hb hp hl => exact started_inv hc hl
  | clear hr hb => exact clear_inv hc

end

/-- Reset empties MSG and the error records (70_reset_and_hazards R281). -/
theorem resetStep_inv (s : State) : (resetStep s).Inv :=
  .of_not_busy rfl List.Pairwise.nil (by simp) rfl (fun _ => rfl) (by simp)

/-- Settles O10, by the three kinds of step. -/
theorem stepKeepsTheInvariant : Obligations.StepKeepsTheInvariant := by
  intro s t h hstep
  rcases step_cases hstep with ⟨-, rfl⟩ | ⟨-, hs⟩ | ⟨-, rfl⟩
  · exact sequencerEffect_inv h.consume
  · exact HostStep.inv h hs
  · exact resetStep_inv s.consume

/-! ## What every step keeps of the position on the source's function -/

/-- A host step keeps the position: while BUSY it changes none of the registers, length and message bytes that the position
speaks of, and an accepted START begins at the initialization vector (42_compressor R164, R184). -/
theorem HostStep.tracks {s t : State} (hs : HostStep s t) (ht : s.TracksMd5) : t.TracksMd5 := by
  cases hs with
  | nothing => exact ht
  | read r k => exact ht
  | refused c => exact ht
  | lenLo v hb => exact tracks_of_not_busy hb
  | lenHi v hb => exact tracks_of_not_busy hb
  | msg a b hb ha => exact tracks_of_not_busy hb
  | startRefused hr hp => exact ht
  | startFault hr hb hp hl => exact tracks_of_not_busy rfl
  | startAccepted hr hb hp hl => exact (tracks_iff_of_load rfl).2 rfl
  | clear hr hb => exact tracks_of_not_busy rfl

/-- Settles O11, by the three kinds of step. -/
theorem stepKeepsRegistersOnMd5 : Obligations.StepKeepsRegistersOnMd5 := by
  intro s t h ht hstep
  rcases step_cases hstep with ⟨-, rfl⟩ | ⟨-, hs⟩ | ⟨-, rfl⟩
  · exact sequencerEffect_tracks h.consume ht
  · exact hs.tracks ht
  · exact tracks_of_not_busy rfl

/-! ## The host-error record (10_state R34) -/

/-- A host step that is no accepted CLEAR keeps a recorded host error (60_exceptions R262). -/
theorem HostStep.hostError_kept {s t : State} (hs : HostStep s t) (he : s.HOSTERR = true)
    (hclear : ¬ (s.runsClear = true ∧ s.busy = false)) :
    t.HOSTERR = true ∧ t.HOSTERR_CAUSE = s.HOSTERR_CAUSE := by
  cases hs with
  | nothing => exact ⟨he, rfl⟩
  | read r k => exact ⟨he, rfl⟩
  | refused c => exact ⟨rfl, hostError_cause_kept s.consume c he⟩
  | lenLo v hb => exact ⟨he, rfl⟩
  | lenHi v hb => exact ⟨he, rfl⟩
  | msg a b hb ha => exact ⟨he, rfl⟩
  | startRefused hr hp => exact ⟨rfl, hostError_cause_kept s.consume _ he⟩
  | startFault hr hb hp hl => exact ⟨he, rfl⟩
  | startAccepted hr hb hp hl => exact ⟨he, rfl⟩
  | clear hr hb => exact absurd ⟨hr, hb⟩ hclear

/-- Settles O22, by the three kinds of step. -/
theorem firstHostErrorIsKept : Obligations.FirstHostErrorIsKept := by
  intro s t he hstep hreset hclear
  rcases step_cases hstep with ⟨-, rfl⟩ | ⟨-, hs⟩ | ⟨hr, -⟩
  · simp [he]
  · exact hs.hostError_kept he hclear
  · exact absurd hr hreset

/-! ## The writers of the working registers (10_state R22 to R27) -/

section
variable {s : State}

/-- In its turn the sequencer writes A to D by ROUND and FOLD only. -/
theorem phase_of_sequencerEffect_abcd (h : (sequencerEffect s).abcd ≠ s.abcd) : s.phase = .round ∨ s.phase = .fold := by
  cases hp : s.phase with
  | round => simp
  | fold => simp
  | load => exact absurd (by rw [sequencerEffect_of_load hp]; rfl) h
  | encode => exact absurd (by rw [sequencerEffect_of_encode hp]; rfl) h
  | idle | done | fault => exact absurd (by simp [sequencerEffect, hp]) h

/-- In its turn the sequencer writes M and OA to OD by LOAD only. -/
theorem phase_of_sequencerEffect_M_orig (h : (sequencerEffect s).M ≠ s.M ∨ (sequencerEffect s).orig ≠ s.orig) :
    s.phase = .load := by
  by_contra hload
  have hkept : (sequencerEffect s).M = s.M ∧ (sequencerEffect s).orig = s.orig := by
    unfold sequencerEffect
    split
    · next hp => exact absurd hp hload
    all_goals exact ⟨rfl, rfl⟩
  exact h.elim (absurd hkept.1) (absurd hkept.2)

/-- In its turn the sequencer clears RI by LOAD and counts it up by every ROUND but round 63. -/
theorem phase_of_sequencerEffect_RI (h : (sequencerEffect s).RI ≠ s.RI) :
    s.phase = .load ∧ (sequencerEffect s).RI = 0 ∨
      s.phase = .round ∧ s.RI.toNat < 63 ∧ (sequencerEffect s).RI = s.RI + 1 := by
  cases hp : s.phase with
  | load => simp [sequencerEffect_of_load hp, loadBlock]
  | round =>
    rw [sequencerEffect_of_round hp] at h ⊢
    have hlast : s.RI.toNat ≠ 63 := fun hr => h (if_pos hr)
    have := s.RI.isLt
    exact .inr ⟨rfl, by omega, if_neg hlast⟩
  | fold => exact absurd (by rw [sequencerEffect_of_fold hp]; rfl) h
  | encode => exact absurd (by rw [sequencerEffect_of_encode hp]; rfl) h
  | idle | done | fault => exact absurd (by simp [sequencerEffect, hp]) h

/-- In its turn the sequencer writes BLK by FOLD only, which counts it up. -/
theorem phase_of_sequencerEffect_BLK (h : (sequencerEffect s).BLK ≠ s.BLK) :
    s.phase = .fold ∧ (sequencerEffect s).BLK = s.BLK + 1 := by
  cases hp : s.phase with
  | fold => simp [sequencerEffect_of_fold hp, foldBlock]
  | load => exact absurd (by rw [sequencerEffect_of_load hp]; rfl) h
  | round => exact absurd (by rw [sequencerEffect_of_round hp]; rfl) h
  | encode => exact absurd (by rw [sequencerEffect_of_encode hp]; rfl) h
  | idle | done | fault => exact absurd (by simp [sequencerEffect, hp]) h

end

/-- The two states hold the same in A to D, OA to OD, M, RI, BLK, LENL and PLEN. -/
structure SameWorking (s t : State) : Prop where
  abcd : t.abcd = s.abcd
  orig : t.orig = s.orig
  M : t.M = s.M
  RI : t.RI = s.RI
  BLK : t.BLK = s.BLK
  LENL : t.LENL = s.LENL
  PLEN : t.PLEN = s.PLEN

/-- A host step that runs no CLEAR is an accepted START or leaves the working registers (R22 to R27). -/
theorem HostStep.started_or_sameWorking {s t : State} (hs : HostStep s t) (hclear : s.runsClear = false) :
    (s.runsStart = true ∧ s.busy = false ∧ t = started s.consume) ∨ SameWorking s t := by
  cases hs with
  | startAccepted hr hb hp hl => exact .inl ⟨hr, hb, rfl⟩
  | clear hr hb => simp [hr] at hclear
  | _ => exact .inr ⟨rfl, rfl, rfl, rfl, rfl, rfl, rfl⟩

/-- Settles O23: the sequencer's writers register by register, and the host's one writer, an accepted START. -/
theorem workingRegistersHaveTheirWriters : Obligations.WorkingRegistersHaveTheirWriters := by
  intro s t hstep hclear hreset
  rcases step_cases hstep with ⟨hturn, rfl⟩ | ⟨-, hs⟩ | ⟨hr, -⟩
  · exact ⟨fun h => .inr ⟨hturn, phase_of_sequencerEffect_abcd (s := s.consume) h⟩,
      fun h => ⟨hturn, phase_of_sequencerEffect_M_orig (s := s.consume) h⟩,
      fun h => ⟨hturn, phase_of_sequencerEffect_RI (s := s.consume) h⟩,
      fun h => .inr ⟨hturn, phase_of_sequencerEffect_BLK (s := s.consume) h⟩, by simp⟩
  · rcases hs.started_or_sameWorking hclear with ⟨hstart, hb, rfl⟩ | hw
    · exact ⟨fun _ => .inl ⟨hstart, rfl, rfl⟩, by simp [started], by simp [started],
        fun _ => .inl ⟨hstart, hb, rfl, rfl⟩, fun _ => ⟨hstart, rfl, hb⟩⟩
    · simp [hw.abcd, hw.orig, hw.M, hw.RI, hw.BLK, hw.LENL, hw.PLEN]
  · exact absurd hr hreset

/-! ## Reads and writes of host registers -/

/-- A RegWrite to any register but CMD, LEN_LO and LEN_HI is refused (10_state R42, 44_host_commands R221). -/
theorem exec_regWrite_readOnly (s : State) {n : BitVec 6} (v : Word) (hcmd : n ≠ 0) (hlo : n ≠ 3) (hhi : n ≠ 4) :
    exec (.regWrite n v) s = .next (hostError .roWrite s) :=
  congrArg Host.Outcome.next (if_pos ⟨hcmd, hlo, hhi⟩)

/-- A RegRead of a register with a value answers it (R220). -/
theorem exec_regRead_some {s : State} {n : BitVec 6} {v : Word} (h : s.hostRegister n = some v) :
    exec (.regRead n) s = .next (answer (.word v) s) := by
  simp [exec, execRegRead, h]

/-! ## STATUS and ERRCODE (10_state R32, R33) -/

/-- Field by field, STATUS is the phase's code, its three flags, and HOSTERR (R32). -/
theorem STATUS_fields (s : State) :
    s.STATUS.getLsbD 0 = s.busy ∧ s.STATUS.getLsbD 1 = decide (s.phase = .done) ∧
      s.STATUS.getLsbD 2 = decide (s.phase = .fault) ∧ s.STATUS.getLsbD 3 = s.HOSTERR ∧
      s.STATUS.extractLsb' 4 3 = s.phase.code ∧ s.STATUS.extractLsb' 7 25 = 0 := by
  have key : ∀ (c : BitVec 3) (h f d b : Bool),
      let w : Word := 0#25 ++ c ++ BitVec.ofBool h ++ BitVec.ofBool f ++ BitVec.ofBool d ++ BitVec.ofBool b
      w.getLsbD 0 = b ∧ w.getLsbD 1 = d ∧ w.getLsbD 2 = f ∧ w.getLsbD 3 = h ∧
        w.extractLsb' 4 3 = c ∧ w.extractLsb' 7 25 = 0 := by decide
  exact key _ _ _ _ _

/-- ERRCODE's fields: FAULT_CODE, HOSTERR_CAUSE and zeros (R33). -/
theorem ERRCODE_fields (s : State) :
    s.ERRCODE.extractLsb' 0 8 = (if s.phase = .fault then s.FCODE else 0) ∧
      s.ERRCODE.extractLsb' 8 8 = (if s.HOSTERR = true then s.HOSTERR_CAUSE else 0) ∧
      s.ERRCODE.extractLsb' 16 16 = 0 :=
  ⟨BitVec.extractLsb'_append_eq_right,
    (BitVec.extractLsb'_append_eq_of_le le_rfl).trans BitVec.extractLsb'_append_eq_right,
    (BitVec.extractLsb'_append_eq_of_le (by omega)).trans BitVec.extractLsb'_append_eq_left⟩

/-- Settles O26: the fields of STATUS by phase, and the rules for a read of any register and a write to a read-only one. -/
theorem statusShowsPhaseAndHostError : Obligations.StatusShowsPhaseAndHostError := by
  intro s
  obtain ⟨hbusy, hdone, hfault, hhosterr, hcode, hzero⟩ := STATUS_fields s
  rw [hbusy, hdone, hfault, hhosterr, hcode, hzero]
  refine ⟨?_, rfl, rfl, rfl, ?_, rfl, ?_, ?_, ?_, exec_regRead_some rfl,
    fun v => exec_regWrite_readOnly s v (by decide) (by decide) (by decide)⟩
  · rw [Bool.eq_iff_iff, busy_iff, decide_eq_true_iff]
  · cases s.phase <;> rfl
  · rintro ⟨hb, hd⟩
    simp [State.busy, of_decide_eq_true hd, Phase.busy] at hb
  · rintro ⟨hb, hf⟩
    simp [State.busy, of_decide_eq_true hf, Phase.busy] at hb
  · rintro ⟨hd, hf⟩
    simp [of_decide_eq_true hd] at hf

/-- Settles O27: the fields of ERRCODE; under the invariant FCODE is zero outside FAULT and the cause is zero without
HOSTERR. -/
theorem errcodeShowsFaultAndCause : Obligations.ErrcodeShowsFaultAndCause := by
  intro s
  obtain ⟨hcode, hcause, hzero⟩ := ERRCODE_fields s
  refine ⟨hcode, hcause, hzero, fun hinv => ⟨?_, ?_⟩⟩
  · rw [hcode, hinv.fault_code]
    split <;> rfl
  · rw [hcause]
    split
    · rfl
    · next he => exact (hinv.no_cause (Bool.eq_false_iff.2 he)).symm

/-! ## Reserved and read-only registers, and what reads depend on (10_state R42, R45) -/

/-- Settles O31: a reserved register reads as 0, and a write to a read-only one is refused. -/
theorem reservedAndReadOnlyIndices : Obligations.ReservedAndReadOnlyIndices := by
  intro s n v
  refine ⟨fun h => ?_, exec_regWrite_readOnly s v⟩
  have hreserved : s.hostRegister n = some 0 := by
    unfold State.hostRegister
    dsimp only
    iterate 6 rw [if_neg (by omega)]
  exact exec_regRead_some hreserved

/-- A RegRead replies with the register's value, or with a free value where the register has none (R220, U3). -/
theorem reply_of_regRead {s t : State} {n : BitVec 6} (h : exec (.regRead n) s = .next t) :
    t.reply = .word ((s.hostRegister n).getD (Config.unspecifiedWord s.cfg.unit s.fresh)) := by
  cases hv : s.hostRegister n with
  | some v =>
    rw [exec_regRead_some hv] at h
    cases h
    rfl
  | none =>
    simp only [exec, execRegRead, hv, Host.Outcome.next.injEq] at h
    rw [← h]
    rfl

/-- A MsgRead replies with the byte, or with 0x00 from the capacity on (R222). -/
theorem reply_of_msgRead {s t : State} {a : Nat} (h : exec (.msgRead a) s = .next t) :
    t.reply = .byte (if a < s.maxMsgBytes then s.msgByte a else 0x00) := by
  cases h
  rfl

/-- What a host register reads as depends on the phase, the error records and LEN, and in DONE on DIGEST and HEX (R45). -/
theorem hostRegister_congr {s s' : State} (n : BitVec 6) (hphase : s.phase = s'.phase) (hflag : s.HOSTERR = s'.HOSTERR)
    (hcause : s.HOSTERR_CAUSE = s'.HOSTERR_CAUSE) (hcode : s.FCODE = s'.FCODE) (hlo : s.LEN_LO = s'.LEN_LO)
    (hhi : s.LEN_HI = s'.LEN_HI) (hdone : s.phase = .done → s.DIGEST = s'.DIGEST ∧ s.HEX = s'.HEX) :
    s.hostRegister n = s'.hostRegister n := by
  have hstatus : s.STATUS = s'.STATUS := by simp only [State.STATUS, State.busy, hphase, hflag]
  have herrcode : s.ERRCODE = s'.ERRCODE := by simp only [State.ERRCODE, hphase, hflag, hcause, hcode]
  unfold State.hostRegister
  by_cases hp : s.phase = .done
  · obtain ⟨hdigest, hhex⟩ := hdone hp
    rw [hstatus, herrcode, hlo, hhi, hphase, hdigest, hhex]
  · have hp' : s'.phase ≠ .done := hphase ▸ hp
    simp only [hstatus, herrcode, hlo, hhi, if_neg hp, if_neg hp']

/-- Settles O30: a read replies with nothing but what the two states agree on. -/
theorem hiddenRegistersAreNotObservable : Obligations.HiddenRegistersAreNotObservable := by
  intro s s' t t' hcfg hphase hflag hcause hcode hlo hhi hmsg hepoch hfresh hdone
  refine ⟨fun n h h' => ?_, fun a h h' => ?_⟩
  · rw [reply_of_regRead h, reply_of_regRead h', hostRegister_congr n hphase hflag hcause hcode hlo hhi hdone, hcfg,
      hfresh]
  · have hmax : s.maxMsgBytes = s'.maxMsgBytes := by rw [State.maxMsgBytes, hcfg, State.maxMsgBytes]
    have hbyte : s.msgByte a = s'.msgByte a := by rw [State.msgByte, hmsg, hcfg, hepoch, State.msgByte]
    rw [reply_of_msgRead h, reply_of_msgRead h', hmax, hbyte]

/-! ## Commands by RegWrite (10_state R31) -/

/-- A RegWrite to CMD, past the BUSY check (44_host_commands R221). -/
theorem exec_regWrite_cmd (s : State) (v : Word) :
    exec (.regWrite 0 v) s = .next (if s.busy then hostError .busyWrite s else writeCommand v s) := by
  simp [exec, execRegWrite]

/-- The value 1 is START's code (30_encoding R100). -/
theorem writeCommand_start (s : State) : writeCommand 1 s = startCommand s := if_pos rfl

/-- The value 2 is CLEAR's code (R100). -/
theorem writeCommand_clear (s : State) : writeCommand 2 s = clearCommand s := by simp [writeCommand]

/-- Settles O35: past the BUSY check, which both share, the value selects the command (30_encoding R100). -/
theorem commandWritePerformsTheCommand : Obligations.CommandWritePerformsTheCommand := by
  intro s
  rw [exec_regWrite_cmd, exec_regWrite_cmd, writeCommand_start, writeCommand_clear]
  exact ⟨rfl, rfl⟩

end Sys2Proof.Machine

/-! SUPPORT. Proofs of the statements of 20_memory: which instruction a step runs, what the host and the sequencer leave
unchanged, blocks side by side, and message memory as MsgRead, MsgWrite and LOAD see it. -/

namespace Sys2Proof.Machine

open Sys2Proof

/-! ## Steps (20_memory R70) -/

/-- A step that runs an instruction runs it on the state with the entry used up. -/
theorem step_of_run {s : State} {i : Instr} (h : s.nextAction = .run i) : step s = exec i s.consume := by
  simp [step, h]

/-- Using up the first entry leaves the rest. -/
theorem consume_of_cons {s : State} {e : Event} {rest : List Event} (h : s.inputs = e :: rest) :
    s.consume = { s with inputs := rest } := by
  rw [State.consume, h, List.tail_cons]

/-- With no entry left there is none to use up. -/
theorem consume_of_nil {s : State} (h : s.inputs = []) : s.consume = s := by
  rw [State.consume, h, List.tail_nil, ← h]

/-- SEL9's instruction is the sequencer's action (30_encoding R102). -/
theorem sequencerAction_of_decode {s : State} {i : Instr} (h : decode (.sel s.sel9) = .ok i) :
    sequencerAction s = .run i := by
  simp [sequencerAction, h]

/-- Settles O5, by the four forms of a turn. -/
theorem stepRunsTheDecodedInstruction : Obligations.StepRunsTheDecodedInstruction := by
  intro s rest i
  refine ⟨fun r hin hd => ?_, fun w hin hd => ?_, fun hin hd => ?_, fun hin hd => ?_⟩
  · rw [← consume_of_cons hin]
    exact step_of_run (by simp [State.nextAction, hin, hostAction, hd])
  · rw [← consume_of_cons hin]
    exact step_of_run (by simp [State.nextAction, hin, commandAction, hd])
  · rw [← consume_of_cons hin]
    exact step_of_run (by simp [State.nextAction, hin, sequencerAction_of_decode hd])
  · have hstep : step s = exec i s.consume :=
      step_of_run (by simp [State.nextAction, hin, sequencerAction_of_decode hd])
    rwa [consume_of_nil hin] at hstep

/-- Whoever's turn it is, the step answers a next state. -/
theorem exists_step_eq_next (s : State) : ∃ t, step s = .next t := by
  cases hn : s.nextAction with
  | reset => exact ⟨_, step_reset hn⟩
  | idle => exact ⟨s.consume, by simp [step, hn]⟩
  | run i =>
    rw [step_of_run hn]
    cases i <;> exact ⟨_, rfl⟩

/-! ## While BUSY the host's input is frozen (20_memory R69, R71) -/

/-- While BUSY a host step writes the host-error record, the reply and the count of free values at most (60_exceptions
R260, 44_host_commands R226). -/
theorem HostStep.eq_of_busy {s t : State} (hs : HostStep s t) (hb : s.busy = true) :
    ∃ flag cause reply fresh, t =
      { s.consume with HOSTERR := flag, HOSTERR_CAUSE := cause, reply := reply, fresh := fresh } := by
  cases hs with
  | nothing | read | refused | startRefused => exact ⟨_, _, _, _, rfl⟩
  | lenLo _ h | lenHi _ h | msg _ _ h | startFault _ h | startAccepted _ h | clear _ h => simp [hb] at h

/-- Settles O17, by the sequencer's step and the host's. -/
theorem inputIsFrozenWhileBusy : Obligations.InputIsFrozenWhileBusy := by
  intro s t hb hreset hstep
  rcases step_cases hstep with ⟨-, rfl⟩ | ⟨-, hs⟩ | ⟨hr, -⟩
  · simp
  · obtain ⟨flag, cause, reply, fresh, rfl⟩ := hs.eq_of_busy hb
    exact ⟨rfl, rfl, rfl, fun _ => rfl⟩
  · exact absurd hr hreset

/-- Settles O18: it is the host's step. -/
theorem hostCannotDisturbAComputation : Obligations.HostCannotDisturbAComputation := by
  intro s t hb hturn hstep
  obtain ⟨u, hu, hs⟩ := step_host s hturn
  obtain rfl : u = t := by simpa [hu] using hstep
  obtain ⟨flag, cause, reply, fresh, rfl⟩ := hs.eq_of_busy hb
  rfl

/-! ## DONE keeps its result (20_memory R72) -/

/-- A host step that runs neither START nor CLEAR leaves the phase, DIGEST and HEX. -/
theorem HostStep.output_kept {s t : State} (hs : HostStep s t) (hstart : s.runsStart = false)
    (hclear : s.runsClear = false) : t.phase = s.phase ∧ t.DIGEST = s.DIGEST ∧ t.HEX = s.HEX := by
  cases hs with
  | startRefused hr | startFault hr | startAccepted hr => simp [hr] at hstart
  | clear hr => simp [hr] at hclear
  | nothing | read | refused | lenLo | lenHi | msg => exact ⟨rfl, rfl, rfl⟩

/-- Settles O19: in DONE the sequencer has no step, and the host's step is neither command. -/
theorem doneHoldsTheResult : Obligations.DoneHoldsTheResult := by
  intro s t hp hstep hstart hclear hreset
  rw [← hp]
  rcases step_cases hstep with ⟨-, rfl⟩ | ⟨-, hs⟩ | ⟨hr, -⟩
  · have hb : s.consume.busy = false := (not_busy_iff s).2 (.inr (.inl hp))
    rw [sequencerEffect_idle _ hb]
    exact ⟨rfl, rfl, rfl⟩
  · exact hs.output_kept hstart hclear
  · exact absurd hr hreset

/-! ## The sequencer's frame (42_compressor R160 to R176, 43_encoder R207) -/

@[simp] theorem sequencerEffect_reply (s : State) : (sequencerEffect s).reply = s.reply := by
  unfold sequencerEffect; split <;> rfl
@[simp] theorem sequencerEffect_fresh (s : State) : (sequencerEffect s).fresh = s.fresh := by
  unfold sequencerEffect; split <;> rfl

/-- In its turn the sequencer writes DIGEST and HEX by ENCODE only. -/
theorem sequencerEffect_output {s : State} (h : s.phase ≠ .encode) :
    (sequencerEffect s).DIGEST = s.DIGEST ∧ (sequencerEffect s).HEX = s.HEX := by
  unfold sequencerEffect
  cases hp : s.phase with
  | encode => exact absurd hp h
  | load | round | fold | idle | done | fault => exact ⟨rfl, rfl⟩

/-- Settles O24, field by field. -/
theorem sequencerLeavesHostState : Obligations.SequencerLeavesHostState := by
  intro s t hturn hstep
  obtain rfl : sequencerEffect s.consume = t := by simpa [step_sequencer s hturn] using hstep
  have houtput := sequencerEffect_output (s := s.consume)
  simpa using houtput

/-! ## Several blocks (20_memory R79, 60_exceptions R275) -/

/-- A step of block `k` is that block's own step. -/
theorem stepBlock_eq {blocks : Blocks} {k : Nat} {s t : State} (hk : blocks[k]? = some s) (h : step s = .next t) :
    stepBlock k blocks = .next (blocks.set k t) := by
  simp [stepBlock, hk, h]

/-- A block replaced by one of the same number leaves the list of numbers. -/
theorem map_unit_set {blocks : Blocks} {k : Nat} {s t : State} (hk : blocks[k]? = some s) (h : t.cfg = s.cfg) :
    (blocks.set k t).map (fun b => b.cfg.unit) = blocks.map fun b => b.cfg.unit := by
  obtain ⟨hlt, rfl⟩ := List.getElem?_eq_some_iff.1 hk
  rw [List.map_set, h, ← List.getElem_map (fun b : State => b.cfg.unit) (h := by rwa [List.length_map]),
    List.set_getElem_self]

/-- Settles O25: the list is set at `k` to that block's next state, and no step writes a block's number. -/
theorem blocksDoNotInteract : Obligations.BlocksDoNotInteract := by
  intro blocks k s hk
  obtain ⟨t, ht⟩ := exists_step_eq_next s
  obtain ⟨hcfg, -⟩ := noStepChangesTheParameters s t ht
  obtain ⟨hlt, -⟩ := List.getElem?_eq_some_iff.1 hk
  refine ⟨t, blocks.set k t, ht, stepBlock_eq hk ht, List.length_set, List.getElem?_set_self hlt,
    fun j hj => List.getElem?_set_ne hj.symm, fun hd => ?_⟩
  rw [Blocks.distinct, map_unit_set hk hcfg]
  exact hd

/-! ## Message memory (20_memory R62 to R64) -/

/-- MsgRead below the capacity (R63, 44_host_commands R222). -/
theorem exec_msgRead_lt {s : State} {a : Nat} (h : a < s.maxMsgBytes) :
    exec (.msgRead a) s = .next (answer (.byte (s.msgByte a)) s) := by
  simp [exec, execMsgRead, h]

/-- MsgRead from the capacity on (R63, R222). -/
theorem exec_msgRead_ge {s : State} {a : Nat} (h : s.maxMsgBytes ≤ a) :
    exec (.msgRead a) s = .next (answer (.byte 0x00) s) := by
  simp [exec, execMsgRead, not_lt.2 h]

/-- Settles O36, on either side of the capacity. -/
theorem msgReadReturnsTheByte : Obligations.MsgReadReturnsTheByte := fun _ _ => ⟨exec_msgRead_lt, exec_msgRead_ge⟩

/-- MsgWrite while BUSY (R62). -/
theorem exec_msgWrite_busy {s : State} (a : Nat) (b : Byte) (hb : s.busy = true) :
    exec (.msgWrite a b) s = .next (hostError .busyWrite s) := by
  simp [exec, execMsgWrite, hb]

/-- MsgWrite past the BUSY check, from the capacity on (R62). -/
theorem exec_msgWrite_range {s : State} {a : Nat} (b : Byte) (hb : s.busy = false) (ha : s.maxMsgBytes ≤ a) :
    exec (.msgWrite a b) s = .next (hostError .msgRange s) := by
  simp [exec, execMsgWrite, hb, ha]

/-- MsgWrite past both checks (R62). -/
theorem exec_msgWrite_stored {s : State} {a : Nat} (b : Byte) (hb : s.busy = false) (ha : a < s.maxMsgBytes) :
    exec (.msgWrite a b) s = .next { s with MSG := Memory.write s.MSG a b } := by
  simp [exec, execMsgWrite, hb, ha]

/-- Settles O37: the two checks in their order, then the read after the write. -/
theorem msgWriteStoresTheByte : Obligations.MsgWriteStoresTheByte := by
  intro s a b
  refine ⟨exec_msgWrite_busy a b, exec_msgWrite_range b, fun hb ha => ?_⟩
  have hsame := msgByte_write_same s a b
  refine ⟨_, exec_msgWrite_stored b hb ha, hsame, fun a' h => msgByte_write_other s a a' b h, rfl, ?_⟩
  rw [exec_msgRead_lt (s := { s with MSG := Memory.write s.MSG a b }) ha, hsame]
  rfl

section
variable {s : State} {m : Memory} (h : ∀ a, a < s.LENL.toNat → State.msgByte { s with MSG := m } a = s.msgByte a)
include h

/-- The padded stream reads MSG below LENL only (41_framer R145). -/
theorem padByte_congr_MSG (j : Nat) : State.padByte { s with MSG := m } j = s.padByte j := by
  unfold State.padByte
  by_cases hj : j < s.LENL.toNat
  · simp only [h j hj]
  · simp only [if_neg hj]

/-- So LOAD does too (42_compressor R161). -/
theorem loadBlock_congr_MSG : loadBlock { s with MSG := m } = { loadBlock s with MSG := m } := by
  have hword : ∀ w, State.blockWord { s with MSG := m } w = s.blockWord w := fun w => by
    simp only [State.blockWord, padByte_congr_MSG h]
  simp only [loadBlock, hword]

end

/-- LOAD where SEL9 selects it (R160). -/
theorem exec_load_selected {s : State} (h : s.phase = .load) : exec .load s = .next (loadBlock s) := by
  simp [exec, execLoad, h]

/-- Settles O43: LOAD reads MSG through the padded stream alone. -/
theorem loadIgnoresBytesPastTheLength : Obligations.LoadIgnoresBytesPastTheLength := by
  intro s t m hp hm hload
  rw [exec_load_selected hp] at hload
  cases hload
  rw [exec_load_selected (s := { s with MSG := m }) hp, loadBlock_congr_MSG hm]

end Sys2Proof.Machine

/-! SUPPORT. Proofs of the statements of 30_encoding: the decoder and the encoder are inverse to each other as far as a
record fixes its instruction, the opcode table's masks field by field, refused records and commands, the padded stream
by regions, and the indices of a round. -/

namespace Sys2Proof

/-! ## Decoding what is encoded (30_encoding R91) -/

section
variable (addr : BitVec 62) (idx : BitVec 6) (data : Word) (b : Byte)

/-- A RegRead record decodes to its transaction. -/
theorem decode_regRead : decode (.txn (txnRecord 0#2 0#62 idx 0#32)) = .ok (.regRead idx) := by
  simp [decodeTxn_ok_iff]

/-- A RegWrite record decodes to its transaction. -/
theorem decode_regWrite : decode (.txn (txnRecord 1#2 0#62 idx data)) = .ok (.regWrite idx data) := by
  simp [decodeTxn_ok_iff]

/-- A MsgRead record decodes to its transaction. -/
theorem decode_msgRead : decode (.txn (txnRecord 2#2 addr 0#6 0#32)) = .ok (.msgRead addr.toNat) := by
  simp [decodeTxn_ok_iff]

/-- A MsgWrite record decodes to its transaction: the byte is DATA[7:0] and the rest of DATA is zero. -/
theorem decode_msgWrite : decode (.txn (txnRecord 3#2 addr 0#6 (0#24 ++ b))) = .ok (.msgWrite addr.toNat b) := by
  have hlow : (0#24 ++ b).extractLsb' 0 8 = b := BitVec.extractLsb'_append_eq_right
  have hhigh : (0#24 ++ b).extractLsb' 8 24 = 0#24 := BitVec.extractLsb'_append_eq_left
  simp [decodeTxn_ok_iff, hlow, hhigh]

end

/-- Settles O1, by the instruction: the fields that the encoder writes are those that the decoder reads, and a
well-formed address is kept by ADDR's 62 bits. -/
theorem decodeOfEncodeIsInstruction : Obligations.DecodeOfEncodeIsInstruction := by
  intro i h
  have haddr : ∀ a, a < 2 ^ 62 → (BitVec.ofNat 62 a).toNat = a := fun _ ha => Nat.mod_eq_of_lt ha
  cases i with
  | regRead n => exact decode_regRead n
  | regWrite n v => exact decode_regWrite n v
  | msgRead a => rw [encode, decode_msgRead, haddr a (of_decide_eq_true h)]
  | msgWrite a b => rw [encode, decode_msgWrite, haddr a (of_decide_eq_true h)]
  | start => rfl
  | clear => rfl
  | load => rfl
  | roundF pos => simp [encode, decodeSel_ok_iff]
  | roundG pos => simp [encode, decodeSel_ok_iff]
  | roundH pos => simp [encode, decodeSel_ok_iff]
  | roundI pos => simp [encode, decodeSel_ok_iff]
  | fold => rfl
  | encode => rfl

/-! ## Encoding what was decoded (R91, R100, R102) -/

/-- A record is the one built from what its fields hold. -/
theorem txnRecord_eq {r : BitVec 128} {kind : BitVec 2} {addr : BitVec 62} {idx : BitVec 6} {data : Word}
    (hz : r.extractLsb' 38 26 = 0#26) (hk : r.extractLsb' 126 2 = kind) (ha : r.extractLsb' 64 62 = addr)
    (hi : r.extractLsb' 32 6 = idx) (hd : r.extractLsb' 0 32 = data) : txnRecord kind addr idx data = r := by
  subst hk ha hi hd
  exact txnRecord_fields r hz

/-- A SEL9 word is the one built from what its fields hold. -/
theorem selWord_eq {w : BitVec 9} {p : BitVec 3} {g : BitVec 2} (hp : w.extractLsb' 6 3 = p)
    (hg : w.extractLsb' 4 2 = g) : selWord p (g ++ w.extractLsb' 0 4) = w := by
  subst hp hg
  exact selWord_fields w

/-- A word whose upper 24 bits are zero is its low byte. -/
theorem zero_append_lowByte {d : Word} (h : d.extractLsb' 8 24 = 0#24) : 0#24 ++ d.extractLsb' 0 8 = d := by
  rw [← h]
  exact BitVec.extractLsb'_append_extractLsb'

/-- A TXN128 record that decodes is its instruction's encoding (R91). -/
theorem encode_of_decode_txn {r : BitVec 128} {i : Instr} (h : decode (.txn r) = .ok i) :
    i.wellFormed = true ∧ encode i = .txn r := by
  have haddr : r.extractLsb' 64 62 = BitVec.ofNat 62 (r.extractLsb' 64 62).toNat := by
    rw [BitVec.ofNat_toNat, BitVec.setWidth_eq]
  have hfits : decide ((r.extractLsb' 64 62).toNat < 2 ^ 62) = true := decide_eq_true (BitVec.isLt _)
  obtain ⟨hz, ⟨hk, ha, hd, rfl⟩ | ⟨hk, ha, rfl⟩ | ⟨hk, hi, hd, rfl⟩ | ⟨hk, hi, hd, rfl⟩⟩ := (decodeTxn_ok_iff r i).1 h
  · exact ⟨rfl, congrArg Record.txn (txnRecord_eq hz hk ha rfl hd)⟩
  · exact ⟨rfl, congrArg Record.txn (txnRecord_eq hz hk ha rfl rfl)⟩
  · exact ⟨hfits, congrArg Record.txn (txnRecord_eq hz hk haddr hi hd)⟩
  · exact ⟨hfits, congrArg Record.txn (txnRecord_eq hz hk haddr hi (zero_append_lowByte hd).symm)⟩

/-- A CMD32 word that decodes is its command's code (R100). -/
theorem encode_of_decode_cmd {w : BitVec 32} {i : Instr} (h : decode (.cmd w) = .ok i) :
    i.wellFormed = true ∧ encode i = .cmd w := by
  rcases (decodeCmd_ok_iff w i).1 h with ⟨rfl, rfl⟩ | ⟨rfl, rfl⟩ <;> exact ⟨rfl, rfl⟩

/-- A SEL9 word that decodes agrees with its instruction's encoding in the phase code, and for a round in RI (R102). -/
theorem encode_of_decode_sel {w : BitVec 9} {i : Instr} (h : decode (.sel w) = .ok i) :
    i.wellFormed = true ∧ ∃ v : BitVec 9, encode i = .sel v ∧ v.extractLsb' 6 3 = w.extractLsb' 6 3 ∧
      (w.extractLsb' 6 3 = 2#3 → v = w) := by
  rcases (decodeSel_ok_iff w i).1 h with ⟨hp, rfl⟩ | ⟨hp, hg, rfl⟩ | ⟨hp, hg, rfl⟩ | ⟨hp, hg, rfl⟩ | ⟨hp, hg, rfl⟩ |
    ⟨hp, rfl⟩ | ⟨hp, rfl⟩
  · exact ⟨rfl, _, rfl, by rw [hp, selWord_phase], by simp [hp]⟩
  · exact ⟨rfl, w, congrArg Record.sel (selWord_eq hp hg), rfl, fun _ => rfl⟩
  · exact ⟨rfl, w, congrArg Record.sel (selWord_eq hp hg), rfl, fun _ => rfl⟩
  · exact ⟨rfl, w, congrArg Record.sel (selWord_eq hp hg), rfl, fun _ => rfl⟩
  · exact ⟨rfl, w, congrArg Record.sel (selWord_eq hp hg), rfl, fun _ => rfl⟩
  · exact ⟨rfl, _, rfl, by rw [hp, selWord_phase], by simp [hp]⟩
  · exact ⟨rfl, _, rfl, by rw [hp, selWord_phase], by simp [hp]⟩

/-- Settles O2, format by format. -/
theorem decodedWordIsTheEncoding : Obligations.DecodedWordIsTheEncoding :=
  ⟨fun _ _ => encode_of_decode_txn, fun _ _ => encode_of_decode_cmd, fun _ _ => encode_of_decode_sel⟩

/-! ## The opcode table's rows (R90, spec/opcode_table.json) -/

/-! A field under a mask of ones is the field. -/

@[simp] theorem kind_and_ones (x : BitVec 2) : x &&& 3#2 = x := BitVec.and_allOnes
@[simp] theorem phase_and_ones (x : BitVec 3) : x &&& 7#3 = x := BitVec.and_allOnes
@[simp] theorem idx_and_ones (x : BitVec 6) : x &&& 63#6 = x := BitVec.and_allOnes
@[simp] theorem zero_and_ones (x : BitVec 26) : x &&& 67108863#26 = x := BitVec.and_allOnes
@[simp] theorem data_and_ones (x : Word) : x &&& 4294967295#32 = x := BitVec.and_allOnes
@[simp] theorem addr_and_ones (x : BitVec 62) : x &&& 4611686018427387903#62 = x := BitVec.and_allOnes

/-- A TXN128 row covers a record when each field agrees, in the order in which the decoder checks them. -/
theorem covers_txn_fields_iff (r : BitVec 128) (mnemonic : String) {b m : Nat} (hm : m < 2 ^ 128) (hb : b < 2 ^ 128) :
    OpcodeRow.covers ⟨mnemonic, .txn128, b, m⟩ (.txn r) = true ↔
      (r.extractLsb' 38 26 &&& (BitVec.ofNat 128 m).extractLsb' 38 26 = (BitVec.ofNat 128 b).extractLsb' 38 26) ∧
      (r.extractLsb' 126 2 &&& (BitVec.ofNat 128 m).extractLsb' 126 2 = (BitVec.ofNat 128 b).extractLsb' 126 2) ∧
      (r.extractLsb' 64 62 &&& (BitVec.ofNat 128 m).extractLsb' 64 62 = (BitVec.ofNat 128 b).extractLsb' 64 62) ∧
      (r.extractLsb' 32 6 &&& (BitVec.ofNat 128 m).extractLsb' 32 6 = (BitVec.ofNat 128 b).extractLsb' 32 6) ∧
      (r.extractLsb' 0 32 &&& (BitVec.ofNat 128 m).extractLsb' 0 32 = (BitVec.ofNat 128 b).extractLsb' 0 32) := by
  rw [covers_txn_iff r mnemonic b m hm hb, txn_and_eq_iff]
  tauto

/-- A CMD32 row, whose mask is all ones, covers its own word only. -/
theorem covers_cmd_iff (w : BitVec 32) (mnemonic : String) {b : Nat} (hb : b < 2 ^ 32) :
    OpcodeRow.covers ⟨mnemonic, .cmd32, b, 0xffffffff⟩ (.cmd w) = true ↔ w = BitVec.ofNat 32 b := by
  simp [OpcodeRow.covers, Record.format, Record.toNat, toNat_and_eq_iff w 0xffffffff b (by decide) hb]

/-- A masked compare of a SEL9 word is one of each field. -/
theorem sel_and_eq_iff (w m b : BitVec 9) : w &&& m = b ↔
    (w.extractLsb' 6 3 &&& m.extractLsb' 6 3 = b.extractLsb' 6 3) ∧
    (w.extractLsb' 4 2 &&& m.extractLsb' 4 2 = b.extractLsb' 4 2) ∧
    (w.extractLsb' 0 4 &&& m.extractLsb' 0 4 = b.extractLsb' 0 4) := by
  constructor
  · rintro rfl
    simp only [BitVec.extractLsb'_and, and_self]
  · rintro ⟨hp, hg, hpos⟩
    rw [← selWord_fields b, ← hp, ← hg, ← hpos, ← selWord_fields (w &&& m)]
    simp only [BitVec.extractLsb'_and]

/-- A SEL9 row covers a word when each field agrees. -/
theorem covers_sel_fields_iff (w : BitVec 9) (mnemonic : String) {b m : Nat} (hm : m < 2 ^ 9) (hb : b < 2 ^ 9) :
    OpcodeRow.covers ⟨mnemonic, .sel9, b, m⟩ (.sel w) = true ↔
      (w.extractLsb' 6 3 &&& (BitVec.ofNat 9 m).extractLsb' 6 3 = (BitVec.ofNat 9 b).extractLsb' 6 3) ∧
      (w.extractLsb' 4 2 &&& (BitVec.ofNat 9 m).extractLsb' 4 2 = (BitVec.ofNat 9 b).extractLsb' 4 2) ∧
      (w.extractLsb' 0 4 &&& (BitVec.ofNat 9 m).extractLsb' 0 4 = (BitVec.ofNat 9 b).extractLsb' 0 4) := by
  rw [← sel_and_eq_iff]
  simp [OpcodeRow.covers, Record.format, Record.toNat, toNat_and_eq_iff w m b hm hb]

/-- The row's mnemonic that the TXN128 decoder reads from a record. -/
theorem exists_decode_txn_iff (r : BitVec 128) (m : String) : (∃ i, decode (.txn r) = .ok i ∧ i.mnemonic = m) ↔
    r.extractLsb' 38 26 = 0#26 ∧
    ((r.extractLsb' 126 2 = 0#2 ∧ r.extractLsb' 64 62 = 0#62 ∧ r.extractLsb' 0 32 = 0#32 ∧ "RegRead" = m) ∨
      (r.extractLsb' 126 2 = 1#2 ∧ r.extractLsb' 64 62 = 0#62 ∧ "RegWrite" = m) ∨
      (r.extractLsb' 126 2 = 2#2 ∧ r.extractLsb' 32 6 = 0#6 ∧ r.extractLsb' 0 32 = 0#32 ∧ "MsgRead" = m) ∨
      (r.extractLsb' 126 2 = 3#2 ∧ r.extractLsb' 32 6 = 0#6 ∧ (r.extractLsb' 0 32).extractLsb' 8 24 = 0#24 ∧
        "MsgWrite" = m)) := by
  simp only [decodeTxn_ok_iff, and_assoc, or_and_right, exists_and_left, exists_or, exists_eq_left, Instr.mnemonic]

/-- The row's mnemonic that the CMD32 decoder reads from a word. -/
theorem exists_decode_cmd_iff (w : BitVec 32) (m : String) : (∃ i, decode (.cmd w) = .ok i ∧ i.mnemonic = m) ↔
    (w = 1#32 ∧ "START" = m) ∨ (w = 2#32 ∧ "CLEAR" = m) := by
  simp only [decodeCmd_ok_iff, and_assoc, or_and_right, exists_and_left, exists_or, exists_eq_left, Instr.mnemonic]

/-- The row's mnemonic that the SEL9 decoder reads from a word. -/
theorem exists_decode_sel_iff (w : BitVec 9) (m : String) : (∃ i, decode (.sel w) = .ok i ∧ i.mnemonic = m) ↔
    (w.extractLsb' 6 3 = 1#3 ∧ "LOAD" = m) ∨
    (w.extractLsb' 6 3 = 2#3 ∧ w.extractLsb' 4 2 = 0#2 ∧ "ROUND_F" = m) ∨
    (w.extractLsb' 6 3 = 2#3 ∧ w.extractLsb' 4 2 = 1#2 ∧ "ROUND_G" = m) ∨
    (w.extractLsb' 6 3 = 2#3 ∧ w.extractLsb' 4 2 = 2#2 ∧ "ROUND_H" = m) ∨
    (w.extractLsb' 6 3 = 2#3 ∧ w.extractLsb' 4 2 = 3#2 ∧ "ROUND_I" = m) ∨
    (w.extractLsb' 6 3 = 3#3 ∧ "FOLD" = m) ∨ (w.extractLsb' 6 3 = 4#3 ∧ "ENCODE" = m) := by
  simp only [decodeSel_ok_iff, and_assoc, or_and_right, exists_and_left, exists_or, exists_eq_left, Instr.mnemonic]

/-- A row covers a TXN128 record exactly when the decoder reads the row's instruction from it. -/
theorem covers_txn_iff_decode {row : OpcodeRow} (h : row ∈ opcodeTable) (r : BitVec 128) :
    row.covers (.txn r) = true ↔ ∃ i, decode (.txn r) = .ok i ∧ i.mnemonic = row.mnemonic := by
  rw [exists_decode_txn_iff]
  revert row
  simp only [opcodeTable, List.cons_append, List.nil_append, List.forall_mem_cons]
  refine ⟨?regRead, ?regWrite, ?msgRead, ?msgWrite, ?_, ?_, ?_, ?_, ?_, ?_, ?_, ?_, ?_, by simp⟩
  case regRead | regWrite | msgRead => simp [covers_txn_fields_iff]
  case msgWrite => simp [covers_txn_fields_iff, data_high_iff]
  all_goals simp [OpcodeRow.covers, Record.format]

/-- A row covers a CMD32 word exactly when the decoder reads the row's command from it. -/
theorem covers_cmd_iff_decode {row : OpcodeRow} (h : row ∈ opcodeTable) (w : BitVec 32) :
    row.covers (.cmd w) = true ↔ ∃ i, decode (.cmd w) = .ok i ∧ i.mnemonic = row.mnemonic := by
  rw [exists_decode_cmd_iff]
  revert row
  simp only [opcodeTable, List.cons_append, List.nil_append, List.forall_mem_cons]
  refine ⟨?_, ?_, ?_, ?_, ?start, ?clear, ?_, ?_, ?_, ?_, ?_, ?_, ?_, by simp⟩
  case start | clear => simp [covers_cmd_iff]
  all_goals simp [OpcodeRow.covers, Record.format]

/-- A row covers a SEL9 word exactly when the decoder reads the row's micro-operation from it. -/
theorem covers_sel_iff_decode {row : OpcodeRow} (h : row ∈ opcodeTable) (w : BitVec 9) :
    row.covers (.sel w) = true ↔ ∃ i, decode (.sel w) = .ok i ∧ i.mnemonic = row.mnemonic := by
  rw [exists_decode_sel_iff]
  revert row
  simp only [opcodeTable, List.cons_append, List.nil_append, List.forall_mem_cons]
  refine ⟨?_, ?_, ?_, ?_, ?_, ?_, ?load, ?roundF, ?roundG, ?roundH, ?roundI, ?fold, ?encode, by simp⟩
  case load | roundF | roundG | roundH | roundI | fold | encode => simp [covers_sel_fields_iff]
  all_goals simp [OpcodeRow.covers, Record.format]

/-- Settles O3, format by format. -/
theorem decoderAgreesWithOpcodeTable : Obligations.DecoderAgreesWithOpcodeTable := by
  intro r row h
  cases r with
  | txn r => exact covers_txn_iff_decode h r
  | cmd w => exact covers_cmd_iff_decode h w
  | sel w => exact covers_sel_iff_decode h w

/-! ## Words the spec prints (95_test_vectors section 10) -/

/-- Settles O4, by running the decoder on each word. -/
theorem wordsWrittenInTheSpecDecode : Obligations.WordsWrittenInTheSpecDecode := by
  unfold Obligations.WordsWrittenInTheSpecDecode
  decide

end Sys2Proof

namespace Sys2Proof.Machine

open Sys2Proof

/-! ## Lines of a host program (30_encoding R104) -/

/-- The host registers DIGEST0 to DIGEST3 have the indices 8 to 11 (10_state R30). -/
theorem digest_index : ∀ w : BitVec 2, (RegName.DIGEST w).index.toNat = 8 + w.toNat := by decide

/-- The host registers HEX0 to HEX7 have the indices 16 to 23 (R30). -/
theorem hex_index : ∀ w : BitVec 3, (RegName.HEX w).index.toNat = 16 + w.toNat := by decide

/-- Settles O7: a line's record is built from the fields of its transaction's. -/
theorem hostLinesDecodeToTheirTransactions : Obligations.HostLinesDecodeToTheirTransactions :=
  ⟨fun reg v => decode_regWrite reg.index v, fun reg => decode_regRead reg.index, decode_msgWrite, decode_msgRead,
    rfl, rfl, rfl, rfl, rfl, digest_index, hex_index, fun _ => rfl, rfl, rfl⟩

/-! ## Refused records and commands (R91, R100) -/

/-- In a TXN128 record that decodes, the must-be-zero bits of its KIND are zero (R91). -/
theorem zero_of_decode_txn {r : BitVec 128} {i : Instr} (h : decode (.txn r) = .ok i) :
    r.extractLsb' 38 26 = 0 ∧ (r.getLsbD 127 = false → r.extractLsb' 64 62 = 0) ∧
      (r.getLsbD 127 = true → r.extractLsb' 32 6 = 0) ∧ (r.getLsbD 126 = false → r.extractLsb' 0 32 = 0) ∧
      (r.getLsbD 127 = true → r.getLsbD 126 = true → r.extractLsb' 8 24 = 0) := by
  have hhigh : r.getLsbD 127 = (r.extractLsb' 126 2).getLsbD 1 := by simp
  have hlow : r.getLsbD 126 = (r.extractLsb' 126 2).getLsbD 0 := by simp
  have hdata : (r.extractLsb' 0 32).extractLsb' 8 24 = r.extractLsb' 8 24 :=
    BitVec.extractLsb'_extractLsb'_of_le (by decide)
  rw [hhigh, hlow, ← hdata]
  obtain ⟨hz, ⟨hk, ha, hd, -⟩ | ⟨hk, ha, -⟩ | ⟨hk, hi, hd, -⟩ | ⟨hk, hi, hd, -⟩⟩ := (decodeTxn_ok_iff r i).1 h
  · simp [hz, hk, ha, hd]
  · simp [hz, hk, ha]
  · simp [hz, hk, hi, hd]
  · simp [hz, hk, hi, hd]

/-- A record that does not decode uses up its entry and changes nothing else (93 U6). -/
theorem step_of_not_decode {s : State} {r : BitVec 128} {rest : List Event} (hin : s.inputs = .host r :: rest)
    (hd : ∀ i, decode (.txn r) ≠ .ok i) : step s = .next { s with inputs := rest } := by
  rw [← consume_of_cons hin]
  cases he : decode (.txn r) with
  | ok i => exact absurd he (hd i)
  | error e => simp [step, State.nextAction, hin, hostAction, he]

/-- Settles O6: in a record that decodes, none of these bits is set. -/
theorem mustBeZeroBitsRefuseTheRecord : Obligations.MustBeZeroBitsRefuseTheRecord := by
  intro s r rest hin hbits
  refine step_of_not_decode hin fun i hd => ?_
  obtain ⟨hzero, haddr, hidx, hdata, hhigh⟩ := zero_of_decode_txn hd
  rcases hbits with h | ⟨h1, h⟩ | ⟨h1, h⟩ | ⟨h0, h⟩ | ⟨h1, h0, h⟩
  · exact h hzero
  · exact h (haddr h1)
  · exact h (hidx h1)
  · exact h (hdata h0)
  · exact h (hhigh h1 h0)

/-- A value other than 1 and 2 is no command code (R230). -/
theorem writeCommand_illegal (s : State) {v : Word} (h1 : v ≠ 1) (h2 : v ≠ 2) :
    writeCommand v s = hostError .illegalCmd s :=
  (if_neg h1).trans (if_neg h2)

/-- A RegWrite of it to CMD records ILLEGAL_CMD outside BUSY (R230). -/
theorem exec_regWrite_illegal {s : State} {v : Word} (hb : s.busy = false) (h1 : v ≠ 1) (h2 : v ≠ 2) :
    exec (.regWrite 0 v) s = .next (hostError .illegalCmd s) := by
  rw [exec_regWrite_cmd, writeCommand_illegal s h1 h2, hb]
  rfl

/-- A CMD32 word of it runs as that RegWrite (R93, log 16). -/
theorem commandAction_illegal {v : Word} (h1 : v ≠ 1) (h2 : v ≠ 2) : commandAction v = .run (.regWrite 0 v) := by
  have hd : decode (.cmd v) = .error .illegalCommand := (if_neg h1).trans (if_neg h2)
  simp [commandAction, hd]

/-- Settles O34: outside BUSY the RegWrite to CMD records the error, and the CMD32 word runs as it. -/
theorem illegalCommandIsRefused : Obligations.IllegalCommandIsRefused := by
  intro s v hp h1 h2
  have hb : s.busy = false := (not_busy_iff s).2 hp
  refine ⟨exec_regWrite_illegal hb h1 h2, fun rest hin => ?_⟩
  have hrun : s.nextAction = .run (.regWrite 0 v) := by
    rw [State.nextAction, hin]
    exact commandAction_illegal h1 h2
  rw [step_of_run hrun, exec_regWrite_illegal (consume_busy s ▸ hb) h1 h2, consume_of_cons hin]
  rfl

/-! ## The padded stream by regions (30_encoding R98, 41_framer R145) -/

section
variable {s : State}

/-- Below LENL the padded stream is the message. -/
theorem padByte_message {j : Nat} (hp : j < s.PLEN.toNat) (hj : j < s.LENL.toNat) : s.padByte j = s.msgByte j := by
  rw [State.padByte, if_neg (not_le.2 hp), if_pos hj]

/-- At LENL stands the marker. -/
theorem padByte_marker (hp : s.LENL.toNat < s.PLEN.toNat) : s.padByte s.LENL.toNat = 0x80 := by
  rw [State.padByte, if_neg (not_le.2 hp), if_neg (lt_irrefl _), if_pos rfl]

/-- Between the marker and the last eight bytes there are zeros. -/
theorem padByte_zero {j : Nat} (hl : s.LENL.toNat < j) (hj : j < s.PLEN.toNat - 8) : s.padByte j = 0x00 := by
  rw [State.padByte, if_neg (by omega), if_neg (by omega), if_neg (by omega), if_neg (not_le.2 hj)]

/-- The last eight bytes hold the bit length, which fits them (R144). -/
theorem padByte_bitLength {k : Nat} (hp : s.LENL.toNat + 9 ≤ s.PLEN.toNat) (hfits : s.LENL.toNat < 2 ^ 61)
    (hk : k < 8) : (s.padByte (s.PLEN.toNat - 8 + k)).toNat = s.LENL.toNat * 8 / 256 ^ k % 256 := by
  have hbits : (BitVec.ofNat 64 (s.LENL.toNat * 8)).toNat = s.LENL.toNat * 8 := Nat.mod_eq_of_lt (by omega)
  rw [State.padByte, if_neg (by omega), if_neg (by omega), if_neg (by omega), if_pos (Nat.le_add_right _ _),
    le64Byte_toNat, hbits, Nat.add_sub_cancel_left]

end

/-- Settles O42: by the invariant PLEN is the padded length, which leaves room for the marker and the bit length, and
the capacity bounds the length. -/
theorem paddedStreamLayout : Obligations.PaddedStreamLayout := by
  intro s hinv hb
  have hroom : s.LENL.toNat + 9 ≤ s.PLEN.toNat := hinv.padded hb ▸ paddedLength_ge _
  have hfits : s.LENL.toNat < 2 ^ 61 := (hinv.length hb).trans_lt (maxMsgBytes_lt s)
  exact ⟨fun j hj => padByte_message (by omega) hj, padByte_marker (by omega), fun _ => padByte_zero,
    fun _ => padByte_bitLength hroom hfits⟩

/-! ## The indices of a round (30_encoding R95, 42_compressor R171) -/

/-- A selected round leaves what `rounded` says. -/
theorem roundStep_of_selects {s : State} {g : Group} {pos : BitVec 4} (h : s.selectsRound g pos = true) :
    s.phase = .round ∧ roundStep g s = rounded g s := by
  simp only [State.selectsRound, Bool.and_eq_true, decide_eq_true_eq] at h
  obtain ⟨hphase, hRI⟩ := h
  rw [← selected_group hRI]
  exact ⟨hphase, roundStep_eq s⟩

/-- Settles O50: the indices by group; and a selected round is `rounded`, which goes on in ROUND or to FOLD. -/
theorem roundIndicesAreInRange : Obligations.RoundIndicesAreInRange := by
  refine ⟨fun i hi => ⟨wordIndex_lt i hi, hi, shiftIndex_lt _ i, shiftIndex_lt _ i⟩, fun s g pos hsel => ?_⟩
  obtain ⟨hphase, hstep⟩ := roundStep_of_selects hsel
  rw [hstep]
  refine ⟨?_, rfl⟩
  by_cases hlast : s.RI.toNat = 63
  · simp [rounded_phase_last g hlast]
  · simp [rounded_phase_more g hlast, hphase]

end Sys2Proof.Machine

/-! SUPPORT. Proof of the statement of 40_constant_table: the round constants against the enclosures of sin n. -/

namespace Sys2Proof.Laws

open Sys2Proof.Machine

/-- Every sine that `p` encloses has floor `t` when it is scaled by 2^32 without its sign. -/
def Enclosure.sineFloorIs (p : Enclosure) (t : ℤ) : Bool :=
  decide (t * scale ≤ 2 ^ 32 * (|p.sine| - p.error) ∧ 2 ^ 32 * (|p.sine| + p.error) < (t + 1) * scale)

/-- The absolute value of an enclosed sine, enclosed. -/
theorem Enclosure.Holds.abs_sine {x : ℝ} {p : Enclosure} (h : p.Holds x) :
    |(|Real.sin x| * scale - ((|p.sine| : ℤ) : ℝ))| ≤ p.error := by
  have hscaled : |Real.sin x| * scale = |Real.sin x * scale| := by rw [abs_mul, abs_of_pos scale_pos_real]
  rw [hscaled, Int.cast_abs]
  exact (abs_abs_sub_abs_le _ _).trans h.1

/-- The check on the integers of an enclosure gives the floor over the reals (R121). -/
theorem Enclosure.Holds.floor_sine {x : ℝ} {p : Enclosure} {t : ℤ} (h : p.Holds x) (ht : p.sineFloorIs t = true) :
    ⌊(2 : ℝ) ^ 32 * |Real.sin x|⌋ = t := by
  obtain ⟨hlow, hhigh⟩ := of_decide_eq_true ht
  have hlow' : (t : ℝ) * scale ≤ 2 ^ 32 * (((|p.sine| : ℤ) : ℝ) - p.error) := by exact_mod_cast hlow
  have hhigh' : 2 ^ 32 * (((|p.sine| : ℤ) : ℝ) + p.error) < ((t : ℝ) + 1) * scale := by exact_mod_cast hhigh
  obtain ⟨hbelow, habove⟩ := abs_le.mp h.abs_sine
  rw [Int.floor_eq_iff]
  constructor
  · refine le_of_mul_le_mul_right ?_ scale_pos_real
    linarith
  · refine lt_of_mul_lt_mul_right ?_ scale_pos_real.le
    linarith

/-- The table against the enclosures of the sines of 1 to 64, on integers alone. -/
theorem tTable_sineFloorIs :
    ∀ i, i < 64 → (oneAngle.multiple i).sineFloorIs (tTable.getD i 0).toNat = true := by
  decide +kernel

end Sys2Proof.Laws

namespace Sys2Proof.Machine

open Sys2Proof

/-- Settles O52: each entry passes the check against the enclosure of its sine, which gives the floor. -/
theorem roundConstantsAreSines : Obligations.RoundConstantsAreSines :=
  ⟨rfl, fun i hi => ((Laws.multiple_holds i).floor_sine (Laws.tTable_sineFloorIs i hi)).symm⟩

end Sys2Proof.Machine

/-! SUPPORT. Proofs of the statements of 41_framer: the padded length, the padded stream as the framed message, and
LEN_RANGE as the only fault a step raises. -/

namespace Sys2Proof.Machine

open Sys2Proof

/-! ## The only fault (41_framer R148, 60_exceptions R251) -/

/-- A host step leaves FCODE, clears it, or is a START that raises LEN_RANGE (44_host_commands R224). -/
theorem HostStep.FCODE_kept_cleared_or_raised {s t : State} (hs : HostStep s t) :
    t.FCODE = s.FCODE ∨ t.FCODE = 0 ∨ (t.FCODE = 1 ∧ t.phase = .fault ∧ s.runsStart = true) := by
  cases hs with
  | nothing | read | refused | lenLo | lenHi | msg | startRefused => exact .inl rfl
  | startFault hr => exact .inr (.inr ⟨rfl, rfl, hr⟩)
  | startAccepted | clear => exact .inr (.inl rfl)

/-- Settles O21, by the three kinds of step: the sequencer raises nothing (42_compressor R171), and a reset clears
FCODE. -/
theorem onlyLenRangeIsEverRaised : Obligations.OnlyLenRangeIsEverRaised := by
  intro s t hstep
  rcases step_cases hstep with ⟨-, rfl⟩ | ⟨-, hs⟩ | ⟨-, rfl⟩
  · exact .inl (sequencerEffect_FCODE s.consume)
  · exact hs.FCODE_kept_cleared_or_raised
  · exact .inr (.inl (resetStep_FCODE s.consume))

/-! ## The padded stream (41_framer R145, R147) -/

/-- Settles O41: by the invariant PLEN is the padded length of the message. -/
theorem paddedStreamIsTheFramedMessage : Obligations.PaddedStreamIsTheFramedMessage := by
  intro s hinv hb
  have hplen : s.PLEN.toNat = paddedLength s.LENL.toNat := hinv.padded hb
  have hlength : (Md5.frame s.message).length = paddedLength s.LENL.toNat := by rw [Md5.frame_length, message_length]
  exact ⟨hplen.trans hlength.symm, frame_eq_padByte s hplen⟩

/-! ## The padded length (41_framer R141 to R143) -/

/-- A multiple of 64 that has room for the marker and the length field is no less than the padded length. -/
theorem paddedLength_least {l p : Nat} (hmod : p % 64 = 0) (hroom : l + 9 ≤ p) : paddedLength l ≤ p := by
  unfold paddedLength; omega

/-- The marker and the length field fit behind a last partial block of at most 55 bytes. -/
theorem paddedLength_of_rem_le {l : Nat} (h : l % 64 ≤ 55) : paddedLength l = 64 * (l / 64 + 1) := by
  unfold paddedLength; omega

/-- A last partial block of 56 bytes or more needs one block more. -/
theorem paddedLength_of_le_rem {l : Nat} (h : 56 ≤ l % 64) : paddedLength l = 64 * (l / 64 + 2) := by
  unfold paddedLength; omega

/-- Settles O40: the bounds, the least multiple, and the two cases of the last partial block. -/
theorem paddedLengthIsTheLeastThatFits : Obligations.PaddedLengthIsTheLeastThatFits := fun l =>
  ⟨paddedLength_mod l, paddedLength_ge l, paddedLength_le l, fun _ => paddedLength_least, paddedLength_of_rem_le,
    paddedLength_of_le_rem⟩

end Sys2Proof.Machine

/-! SUPPORT. Proofs of the statements of 42_compressor: the sequencer's table and its progress, LOAD, the rounds of each
group with their functions, indices and shift amounts, and FOLD. -/

namespace Sys2Proof.Machine

open Sys2Proof

/-! ## Progress (42_compressor R182, R183) -/

/-- While BUSY a step is left: ENCODE's own, or the two that LOAD, ROUND and FOLD still have before them. -/
theorem State.Inv.stepsLeft_ne_zero {s : State} (h : s.Inv) (hb : s.busy = true) : s.stepsLeft ≠ 0 := by
  by_cases he : s.phase = .encode
  · simp [State.stepsLeft, he]
  · have := h.two_le_stepsLeft hb he
    omega

/-- Settles O14: the sequencer's turn takes one of the steps left, and while BUSY the host reaches none of the registers
that count them. -/
theorem sequencerAlwaysProgresses : Obligations.SequencerAlwaysProgresses := by
  intro s t h hb hstep
  refine ⟨h.stepsLeft_ne_zero hb, fun hturn => ?_, fun hturn => ?_⟩
  · obtain rfl : sequencerEffect s.consume = t := by simpa [step_sequencer s hturn] using hstep
    exact sequencerEffect_stepsLeft h.consume hb
  · obtain ⟨u, hu, hs⟩ := step_host s hturn
    obtain rfl : u = t := by simpa [hu] using hstep
    obtain ⟨flag, cause, reply, fresh, rfl⟩ := hs.eq_of_busy hb
    exact ⟨rfl, rfl, rfl, rfl⟩

/-! ## The sequencer's table (R180) -/

section
variable {s : State}

/-- The row LOAD. -/
theorem sequencerEffect_row_load (hp : s.phase = .load) :
    (sequencerEffect s).phase = .round ∧ (sequencerEffect s).RI = 0 ∧ (sequencerEffect s).BLK = s.BLK := by
  rw [sequencerEffect_of_load hp]
  exact ⟨rfl, rfl, rfl⟩

/-- The row ROUND before round 63. -/
theorem sequencerEffect_row_round (hp : s.phase = .round) (hlt : s.RI.toNat < 63) :
    (sequencerEffect s).phase = .round ∧ (sequencerEffect s).RI.toNat = s.RI.toNat + 1 ∧
      (sequencerEffect s).BLK = s.BLK := by
  rw [sequencerEffect_of_round hp]
  exact ⟨(rounded_phase_more _ hlt.ne).trans hp, rounded_RI_toNat _ hlt.ne, rfl⟩

/-- The row ROUND at round 63. -/
theorem sequencerEffect_row_lastRound (hp : s.phase = .round) (hlast : s.RI.toNat = 63) :
    (sequencerEffect s).phase = .fold ∧ (sequencerEffect s).RI = s.RI ∧ (sequencerEffect s).BLK = s.BLK := by
  rw [sequencerEffect_of_round hp]
  exact ⟨rounded_phase_last _ hlast, if_pos hlast, rfl⟩

/-- The row FOLD before the last block. -/
theorem sequencerEffect_row_fold (hp : s.phase = .fold) (hmore : (s.BLK.toNat + 1) * 64 < s.PLEN.toNat) :
    (sequencerEffect s).phase = .load ∧ (sequencerEffect s).BLK.toNat = s.BLK.toNat + 1 ∧
      (sequencerEffect s).RI = s.RI := by
  rw [sequencerEffect_of_fold hp]
  exact ⟨foldBlock_phase_more hmore.ne, foldBlock_BLK_toNat hmore.le, rfl⟩

/-- The row FOLD at the last block. -/
theorem sequencerEffect_row_lastFold (hp : s.phase = .fold) (hlast : (s.BLK.toNat + 1) * 64 = s.PLEN.toNat) :
    (sequencerEffect s).phase = .encode ∧ (sequencerEffect s).BLK.toNat = s.BLK.toNat + 1 ∧
      (sequencerEffect s).RI = s.RI := by
  rw [sequencerEffect_of_fold hp]
  exact ⟨foldBlock_phase_last hlast, foldBlock_BLK_toNat hlast.le, rfl⟩

/-- The row ENCODE. -/
theorem sequencerEffect_row_encode (hp : s.phase = .encode) :
    (sequencerEffect s).phase = .done ∧ (sequencerEffect s).RI = s.RI ∧ (sequencerEffect s).BLK = s.BLK := by
  rw [sequencerEffect_of_encode hp]
  exact ⟨rfl, rfl, rfl⟩

end

/-- Settles O15, row by row. By the invariant a FOLD that is not before the last block is at it. -/
theorem sequencerFollowsItsTable : Obligations.SequencerFollowsItsTable := by
  intro s h hturn
  refine ⟨_, step_sequencer s hturn, sequencerEffect_row_load (s := s.consume),
    sequencerEffect_row_round (s := s.consume), sequencerEffect_row_lastRound (s := s.consume),
    sequencerEffect_row_fold (s := s.consume), fun hp hnot => ?_, sequencerEffect_row_encode (s := s.consume),
    sequencerEffect_idle s.consume⟩
  have hlast : (s.BLK.toNat + 1) * 64 = s.PLEN.toNat := le_antisymm (h.inside_fold hp) (not_lt.1 hnot)
  exact ⟨hlast, sequencerEffect_row_lastFold (s := s.consume) hp hlast⟩

/-! ## LOAD (R160 to R162) -/

/-- LOAD puts word `w` of the block into M[w] (R161). -/
theorem loadBlock_M (s : State) (w : Fin 16) : (loadBlock s).M[w] = s.blockWord w.val := by simp [loadBlock]

/-- Settles O44: each word is four padded bytes packed. -/
theorem loadReadsTheBlock : Obligations.LoadReadsTheBlock := by
  intro s hp
  refine ⟨_, exec_load_selected hp, fun w => ?_, rfl, rfl, rfl, rfl⟩
  rw [loadBlock_M, State.blockWord, le32_toNat]

/-! ## ROUND (R170 to R175) -/

/-- The instruction of the round at position `pos` of a group (30_encoding R102). -/
def Group.instr : Group → BitVec 4 → Instr
  | .F, pos => .roundF pos
  | .G, pos => .roundG pos
  | .H, pos => .roundH pos
  | .I, pos => .roundI pos

/-- The four shift amounts that a group's rounds cycle through (R172 to R175). -/
def Group.shifts : Group → List Nat
  | .F => [7, 12, 17, 22]
  | .G => [5, 9, 14, 20]
  | .H => [4, 11, 16, 23]
  | .I => [6, 10, 15, 21]

/-- A group's rounds find its own shift amounts in SHIFT (40_constant_table R126, R128). -/
theorem shiftTable_of_group (g : Group) (pos : BitVec 4) :
    shiftTable.getD (shiftIndex g (16 * g.code.toNat + pos.toNat)) 0 = g.shifts.getD (pos.toNat % 4) 0 := by
  revert pos
  cases g <;> decide

/-- Round 63 is the last position of group I. -/
theorem group_index_last_iff (g : Group) (pos : BitVec 4) :
    16 * g.code.toNat + pos.toNat = 63 ↔ g = .I ∧ pos = 15#4 := by
  revert pos
  cases g <;> decide

/-- The round SEL9 selects, in the operands of its group: round 63 keeps RI and moves the phase to FOLD, every other
round counts RI on (R170). -/
theorem exec_round_selected {s : State} {g : Group} {pos : BitVec 4} (hp : s.phase = .round)
    (hRI : s.RI = g.code ++ pos) :
    exec (g.instr pos) s = .next { s with
      abcd := roundUpdate g (s.M[wordIndex g (16 * g.code.toNat + pos.toNat)]?.getD 0)
        (tTable.getD (16 * g.code.toNat + pos.toNat) 0) (g.shifts.getD (pos.toNat % 4) 0) s.abcd
      RI := if g = .I ∧ pos = 15#4 then s.RI else s.RI + 1
      phase := if g = .I ∧ pos = 15#4 then .fold else .round } := by
  have hexec : exec (g.instr pos) s = .next (if s.selectsRound g pos then roundStep g s else s) := by cases g <;> rfl
  rw [hexec, roundStep_selected hp hRI]
  simp only [rounded, selected_index hRI, shiftTable_of_group, group_index_last_iff, hp]

/-- Outside group I no round is the last: A to D and RI take its update, and nothing else changes. -/
theorem exec_round_selected_more {s : State} {g : Group} {pos : BitVec 4} (hg : g ≠ .I) (hp : s.phase = .round)
    (hRI : s.RI = g.code ++ pos) :
    exec (g.instr pos) s = .next { s with
      abcd := roundUpdate g (s.M[wordIndex g (16 * g.code.toNat + pos.toNat)]?.getD 0)
        (tTable.getD (16 * g.code.toNat + pos.toNat) 0) (g.shifts.getD (pos.toNat % 4) 0) s.abcd
      RI := s.RI + 1 } := by
  rw [exec_round_selected hp hRI, ← hp]
  simp only [hg, false_and, ↓reduceIte]

/-- Settles O45: group F, whose rounds are 0 to 15, so that a round's index is its position. -/
theorem roundFUpdatesTheState : Obligations.RoundFUpdatesTheState := by
  intro s pos hp hRI
  have hround := exec_round_selected_more (g := .F) (by decide) hp hRI
  have hindex : 16 * Group.F.code.toNat + pos.toNat = pos.toNat := Nat.zero_add _
  rwa [hindex] at hround

/-- Settles O46: group G, rounds 16 to 31. -/
theorem roundGUpdatesTheState : Obligations.RoundGUpdatesTheState := fun _ _ =>
  exec_round_selected_more (g := .G) (by decide)

/-- Settles O47: group H, rounds 32 to 47. -/
theorem roundHUpdatesTheState : Obligations.RoundHUpdatesTheState := fun _ _ =>
  exec_round_selected_more (g := .H) (by decide)

/-- Settles O48: group I, rounds 48 to 63. -/
theorem roundIUpdatesTheState : Obligations.RoundIUpdatesTheState := by
  intro s pos hp hRI
  have hround := exec_round_selected (g := .I) hp hRI
  simp only [true_and] at hround
  exact hround

/-! ## The round functions (R166 to R169, R179) -/

/-- Settles O49: each bit of a round function comes from the three bits at its position, by the truth table R179. -/
theorem roundFunctionsBitByBit : Obligations.RoundFunctionsBitByBit := by
  intro b c d n hn
  simp only [roundFunction, BitVec.getLsbD_or, BitVec.getLsbD_and, BitVec.getLsbD_xor, BitVec.getLsbD_not, hn,
    decide_true, Bool.true_and]
  generalize b.getLsbD n = x, c.getLsbD n = y, d.getLsbD n = z
  revert x y z
  decide

/-! ## The message schedule (R178) -/

section
variable (g : Group)

/-- In its group's rounds a message index is below 16 (R171). -/
theorem wordIndex_of_group_lt {n : Nat} (hn : n < 16) : wordIndex g (16 * g.code.toNat + n) < 16 := by
  cases g <;> simp only [wordIndex, Group.code, BitVec.ofNat_eq_ofNat, BitVec.toNat_ofNat] <;> omega

/-- A message index is the round's position times 1, 5, 3 or 7, all odd, plus a constant, modulo 16: no two rounds of a
group share a word. -/
theorem wordIndex_of_group_injective {n m : Nat} (hn : n < 16) (hm : m < 16)
    (h : wordIndex g (16 * g.code.toNat + n) = wordIndex g (16 * g.code.toNat + m)) : n = m := by
  cases g <;> simp only [wordIndex, Group.code, BitVec.ofNat_eq_ofNat, BitVec.toNat_ofNat] at h <;> omega

/-- So its 16 rounds use all 16 words. -/
theorem wordIndex_of_group_surjective {k : Nat} (hk : k < 16) :
    ∃ n, n < 16 ∧ wordIndex g (16 * g.code.toNat + n) = k := by
  have hinj : Function.Injective fun n : Fin 16 =>
      (⟨wordIndex g (16 * g.code.toNat + n.val), wordIndex_of_group_lt g n.isLt⟩ : Fin 16) := fun n m h =>
    Fin.ext (wordIndex_of_group_injective g n.isLt m.isLt (congrArg Fin.val h))
  obtain ⟨n, hn⟩ := Finite.surjective_of_injective hinj ⟨k, hk⟩
  exact ⟨n, n.isLt, congrArg Fin.val hn⟩

end

/-- Settles O51: the spec's four lists by evaluation; that each is a permutation, from the index being injective. -/
theorem messageScheduleIsAPermutation : Obligations.MessageScheduleIsAPermutation := by
  refine ⟨rfl, rfl, rfl, rfl, fun k hk g => ?_⟩
  obtain ⟨n, hn, hword⟩ := wordIndex_of_group_surjective g hk
  exact ⟨n, hn, hword, fun m hm h => wordIndex_of_group_injective g hm hn (h.trans hword.symm)⟩

/-! ## FOLD (R176) -/

/-- FOLD where SEL9 selects it. -/
theorem exec_fold_selected {s : State} (h : s.phase = .fold) : exec .fold s = .next (foldBlock s) := by
  simp [exec, execFold, h]

/-- Settles O54: the selected FOLD is `foldBlock`, which is the statement's state. -/
theorem foldAddsTheSavedState : Obligations.FoldAddsTheSavedState := fun _ => exec_fold_selected

end Sys2Proof.Machine

/-! SUPPORT. Proofs of the statements of 43_encoder: serialization and hex rendering byte by byte and as injections, and
what ENCODE writes. -/

namespace Sys2Proof.Machine

open Sys2Proof

/-! ## Serialization (43_encoder R200) -/

/-- Byte `j` of a word's four bytes is bits 8j+7:8j (00_scope R11). -/
theorem le32Bytes_getElem? (w : Word) {j : Nat} (hj : j < 4) : (le32Bytes w)[j]? = some (w.extractLsb' (8 * j) 8) := by
  interval_cases j <;> rfl

/-- The 16 bytes determine the four words. -/
theorem serialize_injective {q q' : Quad} (h : serialize q = serialize q') : q = q' := by
  cases q
  cases q'
  obtain ⟨hABC, hD⟩ := List.append_inj' h rfl
  obtain ⟨hAB, hC⟩ := List.append_inj' hABC rfl
  obtain ⟨hA, hB⟩ := List.append_inj' hAB rfl
  rw [Quad.mk.injEq]
  exact ⟨le32Bytes_injective hA, le32Bytes_injective hB, le32Bytes_injective hC, le32Bytes_injective hD⟩

/-! ## Hex rendering (R201 to R203) -/

/-- A nibble's digit is 0 to 9 or a to f in ASCII (R202). -/
theorem hexDigit_lowercase : ∀ v : BitVec 4,
    (0x30 ≤ (hexDigit v).toNat ∧ (hexDigit v).toNat ≤ 0x39) ∨ (0x61 ≤ (hexDigit v).toNat ∧ (hexDigit v).toNat ≤ 0x66) := by
  decide

/-- The characters of byte `j`: the high nibble's digit at 2j, the low nibble's after it (R203). -/
theorem hexString_getElem? {bytes : List Byte} {j : Nat} {b : Byte} (h : bytes[j]? = some b) :
    (hexString bytes)[2 * j]? = some (hexDigit (b.extractLsb' 4 4)) ∧
      (hexString bytes)[2 * j + 1]? = some (hexDigit (b.extractLsb' 0 4)) := by
  induction bytes generalizing j with
  | nil => simp at h
  | cons c bytes ih =>
    rw [hexString_cons]
    cases j with
    | zero =>
      obtain rfl : c = b := by simpa using h
      exact ⟨rfl, rfl⟩
    | succ j => exact ih h

/-- The hex string determines the bytes: its digits the nibbles, and these each byte. -/
theorem hexString_injective {bytes bytes' : List Byte} (h : hexString bytes = hexString bytes') : bytes = bytes' := by
  induction bytes generalizing bytes' with
  | nil =>
    cases bytes' with
    | nil => rfl
    | cons c bytes' => simp [hexString] at h
  | cons b bytes ih =>
    cases bytes' with
    | nil => simp [hexString] at h
    | cons c bytes' =>
      simp only [hexString_cons, List.cons.injEq] at h
      obtain ⟨hhigh, hlow, hrest⟩ := h
      rw [nibbles_injective (hexDigit_injective _ _ hhigh) (hexDigit_injective _ _ hlow), ih hrest]

/-- Settles O57: the bytes of each word in its place, the characters of each byte, and each digit's code by evaluation. -/
theorem serializeAndHexAreBytewise : Obligations.SerializeAndHexAreBytewise := by
  refine ⟨fun q j hj => ?_, fun bytes j b h => ?_, hexString_length, by decide, by decide⟩
  · simp only [← le32Bytes_getElem? _ hj]
    interval_cases j <;> exact ⟨rfl, rfl, rfl, rfl⟩
  · rw [← highNibble, ← lowNibble]
    exact hexString_getElem? h

/-- Settles O58: a character is some nibble's digit, and serialization and rendering are injective. -/
theorem hexIsLowercaseAndInjective : Obligations.HexIsLowercaseAndInjective := by
  refine ⟨fun q => ⟨serialize_length q, by rw [hexString_length, serialize_length]⟩, fun bytes c hc => ?_,
    fun _ _ => serialize_injective, fun _ _ => hexString_injective⟩
  obtain ⟨b, -, hc⟩ := List.mem_flatMap.1 hc
  obtain rfl | rfl : c = hexDigit (b.extractLsb' 4 4) ∨ c = hexDigit (b.extractLsb' 0 4) := by simpa using hc
  · exact hexDigit_lowercase _
  · exact hexDigit_lowercase _

/-! ## ENCODE (R207) -/

/-- ENCODE where SEL9 selects it. -/
theorem exec_encode_selected {s : State} (h : s.phase = .encode) : exec .encode s = .next (encodeDigest s) := by
  simp [exec, execEncode, h]

/-- A serialized state packed four bytes to a register is its four words (R204). -/
theorem packedWord_serialize (q : Quad) :
    (Vector.ofFn fun w : Fin 4 => packedWord (serialize q) w.val) = #v[q.A, q.B, q.C, q.D] := by
  refine Vector.ext fun w hw => ?_
  rw [Vector.getElem_ofFn]
  interval_cases w <;> exact le32_wordBytes _

/-- Settles O56: the selected ENCODE is `encodeDigest`; reading its registers byte by byte undoes the packing. -/
theorem encodeWritesDigestAndHex : Obligations.EncodeWritesDigestAndHex := by
  intro s hp
  have hlength : (hexString (serialize s.abcd)).length = 32 := by rw [hexString_length, serialize_length]
  exact ⟨_, exec_encode_selected hp, rfl, packedWord_serialize s.abcd, packed_four _ (serialize_length s.abcd),
    packed_eight _ hlength, rfl⟩

end Sys2Proof.Machine

/-! SUPPORT. Proofs of the statements of 44_host_commands: what each host register reads as, the writes that BUSY refuses,
LEN writes, and the outcomes of START and CLEAR. -/

namespace Sys2Proof.Machine

open Sys2Proof

/-! ## RegRead (44_host_commands R220) -/

/-- In DONE registers 8 to 11 read as the words of DIGEST (10_state R37). -/
theorem hostRegister_digest {s : State} (h : s.phase = .done) (w : Fin 4) :
    s.hostRegister (BitVec.ofNat 6 (8 + w.val)) = some s.DIGEST[w] := by
  have hk : (BitVec.ofNat 6 (8 + w.val)).toNat = 8 + w.val := Nat.mod_eq_of_lt (by omega)
  simp only [State.hostRegister, hk]
  iterate 4 rw [if_neg (by omega)]
  rw [if_pos (by omega), if_pos h, Nat.add_sub_cancel_left]
  exact Vector.getElem?_eq_getElem w.isLt

/-- In DONE registers 16 to 23 read as the words of HEX (10_state R38). -/
theorem hostRegister_hex {s : State} (h : s.phase = .done) (w : Fin 8) :
    s.hostRegister (BitVec.ofNat 6 (16 + w.val)) = some s.HEX[w] := by
  have hk : (BitVec.ofNat 6 (16 + w.val)).toNat = 16 + w.val := Nat.mod_eq_of_lt (by omega)
  simp only [State.hostRegister, hk]
  iterate 5 rw [if_neg (by omega)]
  rw [if_pos (by omega), if_pos h, Nat.add_sub_cancel_left]
  exact Vector.getElem?_eq_getElem w.isLt

/-- Settles O28: each register has the stated value; the reserved ones are O31's. -/
theorem regReadReturnsTheRegister : Obligations.RegReadReturnsTheRegister := fun s =>
  ⟨exec_regRead_some rfl, exec_regRead_some rfl, exec_regRead_some rfl, exec_regRead_some rfl, exec_regRead_some rfl,
    fun w h => exec_regRead_some (hostRegister_digest h w), fun w h => exec_regRead_some (hostRegister_hex h w),
    fun n => (reservedAndReadOnlyIndices s n 0).1⟩

/-! ## Writes while BUSY (R226) -/

/-- A RegWrite to CMD, LEN_LO or LEN_HI while BUSY is refused. -/
theorem exec_regWrite_busy {s : State} {n : BitVec 6} (v : Word) (hn : n = 0 ∨ n = 3 ∨ n = 4) (hb : s.busy = true) :
    exec (.regWrite n v) s = .next (hostError .busyWrite s) := by
  rcases hn with rfl | rfl | rfl <;> simp [exec, execRegWrite, hb]

/-- START while BUSY is refused. -/
theorem exec_start_busy {s : State} (hb : s.busy = true) : exec .start s = .next (hostError .busyWrite s) :=
  congrArg Host.Outcome.next (if_pos hb)

/-- CLEAR while BUSY is refused. -/
theorem exec_clear_busy {s : State} (hb : s.busy = true) : exec .clear s = .next (hostError .busyWrite s) :=
  congrArg Host.Outcome.next (if_pos hb)

/-- Settles O32: the BUSY check refuses each of the six, with one and the same record. -/
theorem busyRefusesWrites : Obligations.BusyRefusesWrites := by
  rintro s hp _ rfl
  have hb : s.busy = true := (busy_iff s).2 hp
  exact ⟨fun v => exec_regWrite_busy v (by simp) hb, fun v => exec_regWrite_busy v (by simp) hb,
    fun v => exec_regWrite_busy v (by simp) hb, fun a b => exec_msgWrite_busy a b hb, exec_start_busy hb,
    exec_clear_busy hb⟩

/-! ## LEN writes (R225) -/

/-- A RegWrite to LEN_LO past the BUSY check. -/
theorem exec_regWrite_lenLo {s : State} (v : Word) (hb : s.busy = false) :
    exec (.regWrite 3 v) s = .next { s with LEN_LO := v } := by
  simp [exec, execRegWrite, hb]

/-- A RegWrite to LEN_HI past the BUSY check. -/
theorem exec_regWrite_lenHi {s : State} (v : Word) (hb : s.busy = false) :
    exec (.regWrite 4 v) s = .next { s with LEN_HI := v } := by
  simp [exec, execRegWrite, hb]

/-- Settles O33: outside BUSY the write passes the check. -/
theorem lenWriteStoresTheValue : Obligations.LenWriteStoresTheValue := by
  intro s v hp
  have hb : s.busy = false := (not_busy_iff s).2 hp
  exact ⟨exec_regWrite_lenLo v hb, exec_regWrite_lenHi v hb⟩

/-! ## START (R224) -/

/-- START in FAULT is refused: only CLEAR and reset leave FAULT (60_exceptions R270). -/
theorem exec_start_fault {s : State} (hf : s.phase = .fault) : exec .start s = .next (hostError .cmdInFault s) := by
  have hb : s.busy = false := (not_busy_iff s).2 (.inr (.inr hf))
  rw [exec_start_idle hb, startCommand, if_pos hf]

/-- START of a length too long raises LEN_RANGE. -/
theorem exec_start_tooLong {s : State} (hb : s.busy = false) (hf : s.phase ≠ .fault) (hl : s.maxMsgBytes < s.len) :
    exec .start s = .next (raiseFault .lenRange s) := by
  rw [exec_start_idle hb, startCommand, if_neg hf, if_pos hl]

/-- Settles O38 by the three outcomes: FAULT, a length too long, and an accepted START, which latches both lengths exactly;
no outcome raises PAD_ALIGN, a padded length being a multiple of 64 (41_framer R142). -/
theorem startBeginsAComputation : Obligations.StartBeginsAComputation := by
  rintro s _ rfl
  have hready : s.phase = .idle ∨ s.phase = .done → s.busy = false ∧ s.phase ≠ .fault := by
    rintro (hp | hp) <;> simp [State.busy, Phase.busy, hp]
  refine ⟨exec_start_fault, fun hp hl => ?_, fun hp hl => ?_⟩
  · obtain ⟨hb, hf⟩ := hready hp
    exact exec_start_tooLong hb hf hl
  · obtain ⟨hb, hf⟩ := hready hp
    exact ⟨started s, exec_start_accepted hb hf hl, started_lenl s hl, started_plen s hl, rfl, rfl, rfl, rfl, rfl⟩

/-! ## CLEAR (R229) -/

/-- Settles O39: CLEAR writes `returnToIdle`'s fields and the working registers; the fields it leaves are the state's. -/
theorem clearReturnsToIdle : Obligations.ClearReturnsToIdle := by
  intro s hp
  have hb : s.busy = false := (not_busy_iff s).2 hp
  exact ⟨_, exec_clear_idle hb, rfl, rfl, rfl, rfl, rfl, rfl, rfl, fun _ => rfl, rfl, rfl, rfl⟩

end Sys2Proof.Machine

/-! SUPPORT. Proofs of the statements of 60_exceptions: the way out of FAULT. -/

namespace Sys2Proof.Machine

open Sys2Proof

/-! ## FAULT (60_exceptions R258, R270) -/

/-- In FAULT a host step that runs no CLEAR, a refused START among them, leaves the phase and FCODE. -/
theorem HostStep.fault_kept {s t : State} (hs : HostStep s t) (hp : s.phase = .fault) (hclear : s.runsClear = false) :
    t.phase = .fault ∧ t.FCODE = s.FCODE := by
  cases hs with
  | startFault _ _ hne | startAccepted _ _ hne => exact absurd hp hne
  | clear hr => simp [hr] at hclear
  | nothing | read | refused | lenLo | lenHi | msg | startRefused => exact ⟨hp, rfl⟩

/-- Settles O20: of the three kinds of step the sequencer's does nothing in FAULT and the host's keeps FAULT unless it is
CLEAR; CLEAR, which FAULT accepts, and reset both go through `returnToIdle`. -/
theorem faultHoldsUntilClearOrReset : Obligations.FaultHoldsUntilClearOrReset := by
  intro s t hp hstep
  have hb : s.consume.busy = false := (not_busy_iff s).2 (.inr (.inr hp))
  refine ⟨fun hclear hreset => ?_, ?_⟩
  · rcases step_cases hstep with ⟨-, rfl⟩ | ⟨-, hs⟩ | ⟨hr, -⟩
    · rw [sequencerEffect_idle _ hb]
      exact ⟨hp, rfl⟩
    · exact hs.fault_kept hp hclear
    · exact absurd hr hreset
  · rintro (hclear | hreset)
    · rw [step_clear hclear, exec_clear_idle hb] at hstep
      cases hstep
      exact ⟨rfl, rfl, rfl, rfl⟩
    · rw [step_reset hreset] at hstep
      cases hstep
      exact ⟨rfl, rfl, rfl, rfl⟩

end Sys2Proof.Machine

/-! SUPPORT. Proofs of the statements of 70_reset_and_hazards: what reset leaves, and that it meets the invariant. -/

namespace Sys2Proof.Machine

open Sys2Proof

/-! ## The values that reset states (70_reset_and_hazards R281) -/

section
variable {s : State} (hp : s.phase = .idle) (he : s.HOSTERR = false)
include hp he

/-- In IDLE with no host error STATUS is 0, IDLE's phase code being 0 (10_state R32). -/
theorem STATUS_of_idle : s.STATUS = 0 := by
  have hb : s.busy = false := (not_busy_iff s).2 (.inl hp)
  rw [State.STATUS, hb, he, hp]
  rfl

/-- In IDLE with no host error ERRCODE is 0, whatever FCODE and the cause hold (10_state R33). -/
theorem ERRCODE_of_idle : s.ERRCODE = 0 := by
  have hf : s.phase ≠ .fault := by simp [hp]
  rw [State.ERRCODE, if_neg hf, if_neg (by simp [he])]
  rfl

end

/-- Settles O8: both states have the fields of R281 by definition, and STATUS and ERRCODE are 0 in IDLE with no host
error. -/
theorem resetLeavesStatedValues : Obligations.ResetLeavesStatedValues := by
  refine ⟨fun s rest h => ?_, rfl, rfl, rfl, rfl, rfl, rfl, STATUS_of_idle rfl rfl, ERRCODE_of_idle rfl rfl⟩
  have hn : s.nextAction = .reset := by simp [State.nextAction, h]
  exact ⟨_, step_reset hn, rfl, rfl, rfl, rfl, rfl, rfl, STATUS_of_idle rfl rfl, ERRCODE_of_idle rfl rfl⟩

/-! ## The invariant after reset -/

/-- State.reset is not BUSY, its MSG is empty and it has no error record. -/
theorem reset_inv : State.reset.Inv :=
  .of_not_busy rfl Memory.reset_wf (by simp [State.reset]) rfl (fun _ => rfl) (by simp [State.reset])

/-- Settles O9: in IDLE no computation is tracked. -/
theorem resetMeetsTheInvariant : Obligations.ResetMeetsTheInvariant :=
  ⟨reset_inv, tracks_of_not_busy rfl⟩

end Sys2Proof.Machine

/-! SUPPORT. Proofs of the statements of three topics: every step and instruction answers, reads of output that is not yet
there, and micro-operations that SEL9 does not select. -/

namespace Sys2Proof.Machine

open Sys2Proof

/-! ## Every instruction answers (30_encoding section 3, 60_exceptions section 1) -/

/-- Each instruction's arm answers a next state; none faults or refuses. -/
theorem exists_exec_eq_next (i : Instr) (s : State) : ∃ t, exec i s = .next t := by
  cases i <;> exact ⟨_, rfl⟩

/-- Settles O16: a step by the turn's action, an instruction by its arm. -/
theorem everyStepAnswersNext : Obligations.EveryStepAnswersNext := ⟨exists_step_eq_next, exists_exec_eq_next⟩

/-! ## Output read outside DONE (93_implementation_defined U3) -/

/-- Outside DONE no register of DIGEST or HEX has a value (10_state R37, R38). -/
theorem hostRegister_output_none {s : State} {n : BitVec 6} (hp : s.phase ≠ .done)
    (hn : (8 ≤ n.toNat ∧ n.toNat ≤ 11) ∨ (16 ≤ n.toNat ∧ n.toNat ≤ 23)) : s.hostRegister n = none := by
  unfold State.hostRegister
  dsimp only
  iterate 4 rw [if_neg (by omega)]
  rcases hn with hdigest | hhex
  · rw [if_pos (by omega), if_neg hp]
  · rw [if_neg (by omega), if_pos (by omega), if_neg hp]

/-- A RegRead of a register without a value answers a free value and counts it (44_host_commands R220). -/
theorem exec_regRead_none {s : State} {n : BitVec 6} (h : s.hostRegister n = none) :
    exec (.regRead n) s =
      .next (answer (.word (Config.unspecifiedWord s.cfg.unit s.fresh)) { s with fresh := s.fresh + 1 }) := by
  simp [exec, execRegRead, h]

/-- Settles O29: those registers have no value outside DONE, so the read answers a free one. -/
theorem readsOfUnspecifiedOutputComplete : Obligations.ReadsOfUnspecifiedOutputComplete := fun _ _ hp hn =>
  exec_regRead_none (hostRegister_output_none hp hn)

/-! ## Micro-operations that SEL9 does not select (30_encoding section 3) -/

/-- LOAD outside its phase. -/
theorem exec_load_unselected {s : State} (h : s.phase ≠ .load) : exec .load s = .next s :=
  congrArg Host.Outcome.next (if_neg h)

/-- A round outside its phase or away from its round index, in any group. -/
theorem exec_round_unselected {s : State} {g : Group} {pos : BitVec 4}
    (h : ¬ (s.phase = .round ∧ s.RI = g.code ++ pos)) : exec (g.instr pos) s = .next s := by
  have hexec : exec (g.instr pos) s = .next (if s.selectsRound g pos then roundStep g s else s) := by cases g <;> rfl
  have hsel : ¬ s.selectsRound g pos = true := by simpa [State.selectsRound] using h
  rw [hexec, if_neg hsel]

/-- FOLD outside its phase. -/
theorem exec_fold_unselected {s : State} (h : s.phase ≠ .fold) : exec .fold s = .next s :=
  congrArg Host.Outcome.next (if_neg h)

/-- ENCODE outside its phase. -/
theorem exec_encode_unselected {s : State} (h : s.phase ≠ .encode) : exec .encode s = .next s :=
  congrArg Host.Outcome.next (if_neg h)

/-- Settles O55: each micro-operation checks its own selection; the four rounds are one case per group. -/
theorem unselectedMicroOperationsChangeNothing : Obligations.UnselectedMicroOperationsChangeNothing := fun _ _ =>
  ⟨exec_load_unselected, exec_round_unselected (g := .F), exec_round_unselected (g := .G),
    exec_round_unselected (g := .H), exec_round_unselected (g := .I), exec_fold_unselected, exec_encode_unselected⟩

end Sys2Proof.Machine
